-- ==== Sys2Proof/Config.lean ====
section
/-! DEFINITION. Config.lean: the fixed parameters of rule R5 as named constants, and the three open parameters as plain data.

The spec leaves three parameters open (R5, R23; decisions D2, D10, D15): a model takes them as arguments. They are a record
here, `Params`, which a machine is reset with and which nothing changes afterwards. No value of this hardware is left free:
every behaviour the spec does not leave to one of the three parameters it decides (92_eei_decisions.md). -/

namespace Sys2Proof

/-- R5 `MEM_SIZE`: the address space is 4096 bytes, addresses 0x000 to 0xFFF (R30). -/
abbrev memSize : Nat := 0x1000

/-- R5 `PROGRAM_START`: where an image is loaded and where execution starts. -/
abbrev programStart : Nat := 0x200

/-- R5 `IMAGE_MAX`: the length of the largest image that loads, 3584 bytes. -/
abbrev imageMax : Nat := memSize - programStart

/-- R5 `NREGS`: 16 general registers, indices 0 to 15. -/
abbrev nregs : Nat := 16

/-- R5 `STACK_DEPTH`: the call stack has 16 entries. -/
abbrev stackDepth : Nat := 16

/-- R5 `FB_WIDTH`: the framebuffer has 64 columns. -/
abbrev fbWidth : Nat := 64

/-- R5 `FB_HEIGHT`: the framebuffer has 32 rows. -/
abbrev fbHeight : Nat := 32

/-- R5 `UNKNOWN_OPCODE_POLICY` (D2): what an unrecognized word does, R111 or R112. -/
inductive UnknownOpcodePolicy where
  /-- R111: report, set `unimpl_seen`, advance by 2. -/
  | skip
  /-- R112: raise IllegalInstruction. -/
  | fault
  deriving DecidableEq, Repr

/-- R5 `DRAW_OOB_POLICY` (D10): what DRW does with a set sprite pixel that has no framebuffer cell, R99. -/
inductive DrawOobPolicy where
  /-- The instruction raises FramebufferOutOfRange before any write. -/
  | fault
  /-- The pixel is dropped. -/
  | clip
  /-- The pixel is drawn at its coordinates modulo 64 and 32. -/
  | wrap
  deriving DecidableEq, Repr

/-- The three open parameters of R5, "injected at construction" (R23). -/
structure Params where
  unknownOpcode : UnknownOpcodePolicy
  drawOob : DrawOobPolicy
  /-- R5 `TIMER_TICK_ENABLE` (D15): whether the host's Tick move exists (R134). -/
  timerTickEnable : Bool
  deriving DecidableEq, Repr

/-- The values the "reference value" column of R5 gives: `skip`, the spec's default `fault`, and `false`. -/
def Params.reference : Params :=
  { unknownOpcode := .skip, drawOob := .fault, timerTickEnable := false }

end Sys2Proof
end

