-- ==== Sys2Proof/Word.lean ====
section
/-! DEFINITION. Word.lean: the three widths of R5 as bit vectors.

Every value of this hardware is an unsigned bit pattern (R9, R82). Sums that the spec forms as natural numbers are formed on
`Nat` where they arise (Machine/Ops.lean, Machine/Operands.lean). -/

namespace Sys2Proof

/-- An 8-bit value: a general register, the delay timer, a byte of memory, an immediate `NN`. -/
abbrev Byte := BitVec 8

/-- A 16-bit value: `pc`, `I`, a stack entry, an instruction word, a word of `info`. -/
abbrev Word := BitVec 16

/-- A 12-bit address immediate `NNN` (R52). -/
abbrev Addr := BitVec 12

end Sys2Proof
end

