-- ==== Sys2Proof/Syntax.lean ====
section
/-! DEFINITION. Syntax.lean: the 15 instructions of R54, one constructor per row of spec/opcode_table.json, and their mnemonics.

A register field has 4 bits and all 16 values are registers (R10, R57), so a register operand is an index below 16. A word
that matches no row is no instruction (R57): the decoder returns it as unrecognized and it has no constructor here. -/

namespace Sys2Proof

/-- The index of a general register, 0 to 15 (R10). -/
abbrev Reg := Fin nregs

/-- Register 15, which DRW writes with its collision result (R11). -/
abbrev Reg.vf : Reg := 15

/-- A sprite's number of rows, 0 to 15 (R95). -/
abbrev RowCount := Fin 16

/-- The instructions, with the fields R52 gives their formats. -/
inductive Instr where
  /-- `00EE`, R70. -/
  | ret
  /-- `1NNN`, R71. -/
  | jp (nnn : Addr)
  /-- `2NNN`, R72. -/
  | call (nnn : Addr)
  /-- `3XNN`, R73. -/
  | se (x : Reg) (nn : Byte)
  /-- `6XNN`, R80. -/
  | ldi (x : Reg) (nn : Byte)
  /-- `7XNN`, R81. -/
  | addi (x : Reg) (nn : Byte)
  /-- `8XY0`, R85. -/
  | cpy (x y : Reg)
  /-- `8XY1`, R86. -/
  | or (x y : Reg)
  /-- `8XY2`, R87. -/
  | and (x y : Reg)
  /-- `8XY3`, R88. -/
  | xor (x y : Reg)
  /-- `ANNN`, R90. -/
  | ldidx (nnn : Addr)
  /-- `DXYN`, R95. -/
  | drw (x y : Reg) (n : RowCount)
  /-- `FX07`, R105. -/
  | rddt (x : Reg)
  /-- `FX15`, R106. -/
  | wrdt (x : Reg)
  /-- `FX1E`, R91. -/
  | addidx (x : Reg)
  deriving DecidableEq, Repr

/-- The 15 mnemonics of R54; each belongs to one row (R60). -/
inductive Mnemonic where
  | RET | JP | CALL | SE | LDI | ADDI | CPY | OR | AND | XOR | LDIDX | DRW | RDDT | WRDT | ADDIDX
  deriving DecidableEq, Repr

/-- The mnemonic an instruction is written with (R60). -/
def Instr.mnemonic : Instr → Mnemonic
  | .ret => .RET
  | .jp _ => .JP
  | .call _ => .CALL
  | .se _ _ => .SE
  | .ldi _ _ => .LDI
  | .addi _ _ => .ADDI
  | .cpy _ _ => .CPY
  | .or _ _ => .OR
  | .and _ _ => .AND
  | .xor _ _ => .XOR
  | .ldidx _ => .LDIDX
  | .drw _ _ _ => .DRW
  | .rddt _ => .RDDT
  | .wrdt _ => .WRDT
  | .addidx _ => .ADDIDX

end Sys2Proof
end

