-- ==== Sys2Proof/WellFormed.lean ====
section
/-! DEFINITION. WellFormed.lean: which written instructions are instructions (the operand column of R60).

The fields of `Instr` have exactly the widths of R52, so a value of `Instr` cannot hold an operand out of range. What can be
ill-formed is an instruction as it is WRITTEN, a mnemonic with operands that are any natural numbers: R60 makes an operand
outside its range "an assembly error, not a truncation". `AsmLine.wellFormed` is that check, `AsmLine.toInstr?` the
instruction a well-formed line stands for, and an `Instr` is well-formed when the line it is written as is. -/

namespace Sys2Proof

/-- One operand as written (R60): a register `V` and a number, or an immediate. -/
inductive AsmOperand where
  | reg (index : Nat)
  | imm (value : Nat)
  deriving DecidableEq, Repr

/-- One instruction as written (R60): a mnemonic and its operands in order, the destination first. -/
structure AsmLine where
  mnemonic : Mnemonic
  operands : List AsmOperand
  deriving DecidableEq, Repr

/-- Whether a number is the index of a register: `0 <= x <= 15` (R60). -/
def isRegIndex (x : Nat) : Bool := decide (x < nregs)

/-- Whether a number fits an 8-bit immediate: `0 <= nn <= 0xFF` (R60). -/
def isByteImm (nn : Nat) : Bool := decide (nn ≤ 0xFF)

/-- Whether a number fits a 12-bit address: `0 <= nnn <= 0xFFF` (R60). -/
def isAddrImm (nnn : Nat) : Bool := decide (nnn ≤ 0xFFF)

/-- Whether a number is a row count: `0 <= n <= 15` (R60). -/
def isRowCount (n : Nat) : Bool := decide (n ≤ 15)

/-- The check of R60: the mnemonic has the operands its syntax lists, each in its range. -/
def AsmLine.wellFormed (l : AsmLine) : Bool :=
  match l.mnemonic, l.operands with
  | .RET, [] => true
  | .JP, [.imm nnn] | .CALL, [.imm nnn] | .LDIDX, [.imm nnn] => isAddrImm nnn
  | .SE, [.reg x, .imm nn] | .LDI, [.reg x, .imm nn] | .ADDI, [.reg x, .imm nn] => isRegIndex x && isByteImm nn
  | .CPY, [.reg x, .reg y] | .OR, [.reg x, .reg y] | .AND, [.reg x, .reg y] | .XOR, [.reg x, .reg y] =>
      isRegIndex x && isRegIndex y
  | .DRW, [.reg x, .reg y, .imm n] => isRegIndex x && isRegIndex y && isRowCount n
  | .RDDT, [.reg x] | .WRDT, [.reg x] | .ADDIDX, [.reg x] => isRegIndex x
  | _, _ => false

/-- A register operand, if it names one. -/
def regOf (x : Nat) : Option Reg := if h : x < nregs then some ⟨x, h⟩ else none

/-- An 8-bit immediate operand, if it is in range. -/
def byteOf (nn : Nat) : Option Byte := if nn ≤ 0xFF then some (BitVec.ofNat 8 nn) else none

/-- A 12-bit address operand, if it is in range. -/
def addrOf (nnn : Nat) : Option Addr := if nnn ≤ 0xFFF then some (BitVec.ofNat 12 nnn) else none

/-- A row count operand, if it is in range. -/
def rowCountOf (n : Nat) : Option RowCount := if h : n < 16 then some ⟨n, h⟩ else none

/-- The instruction a line stands for; none for a line that is an assembly error (R60). -/
def AsmLine.toInstr? (l : AsmLine) : Option Instr :=
  match l.mnemonic, l.operands with
  | .RET, [] => some .ret
  | .JP, [.imm nnn] => do some (.jp (← addrOf nnn))
  | .CALL, [.imm nnn] => do some (.call (← addrOf nnn))
  | .SE, [.reg x, .imm nn] => do some (.se (← regOf x) (← byteOf nn))
  | .LDI, [.reg x, .imm nn] => do some (.ldi (← regOf x) (← byteOf nn))
  | .ADDI, [.reg x, .imm nn] => do some (.addi (← regOf x) (← byteOf nn))
  | .CPY, [.reg x, .reg y] => do some (.cpy (← regOf x) (← regOf y))
  | .OR, [.reg x, .reg y] => do some (.or (← regOf x) (← regOf y))
  | .AND, [.reg x, .reg y] => do some (.and (← regOf x) (← regOf y))
  | .XOR, [.reg x, .reg y] => do some (.xor (← regOf x) (← regOf y))
  | .LDIDX, [.imm nnn] => do some (.ldidx (← addrOf nnn))
  | .DRW, [.reg x, .reg y, .imm n] => do some (.drw (← regOf x) (← regOf y) (← rowCountOf n))
  | .RDDT, [.reg x] => do some (.rddt (← regOf x))
  | .WRDT, [.reg x] => do some (.wrdt (← regOf x))
  | .ADDIDX, [.reg x] => do some (.addidx (← regOf x))
  | _, _ => none

/-- An instruction as R60 writes it. -/
def Instr.toAsm : Instr → AsmLine
  | .ret => ⟨.RET, []⟩
  | .jp nnn => ⟨.JP, [.imm nnn.toNat]⟩
  | .call nnn => ⟨.CALL, [.imm nnn.toNat]⟩
  | .se x nn => ⟨.SE, [.reg x, .imm nn.toNat]⟩
  | .ldi x nn => ⟨.LDI, [.reg x, .imm nn.toNat]⟩
  | .addi x nn => ⟨.ADDI, [.reg x, .imm nn.toNat]⟩
  | .cpy x y => ⟨.CPY, [.reg x, .reg y]⟩
  | .or x y => ⟨.OR, [.reg x, .reg y]⟩
  | .and x y => ⟨.AND, [.reg x, .reg y]⟩
  | .xor x y => ⟨.XOR, [.reg x, .reg y]⟩
  | .ldidx nnn => ⟨.LDIDX, [.imm nnn.toNat]⟩
  | .drw x y n => ⟨.DRW, [.reg x, .reg y, .imm n]⟩
  | .rddt x => ⟨.RDDT, [.reg x]⟩
  | .wrdt x => ⟨.WRDT, [.reg x]⟩
  | .addidx x => ⟨.ADDIDX, [.reg x]⟩

/-- Every operand of the instruction is in the range R60 gives it. -/
def Instr.wellFormed (i : Instr) : Bool := i.toAsm.wellFormed

end Sys2Proof
end

