-- ==== Sys2Proof/Decode.lean ====
section
/-! DEFINITION. Decode.lean: the fields of R52, the opcode map of R54, the decoder (R53, R58) and the encoder (R60).

A word selects the row with `(instr & mask) == match`; a word that matches no row is `Unrecognized(instr)` (R57, R58).
Decoding reads nothing but the word. -/

namespace Sys2Proof

/-- R52 `X = instr[11:8]`. -/
def fieldX (instr : Word) : Reg := (instr.extractLsb' 8 4).toFin

/-- R52 `Y = instr[7:4]`. -/
def fieldY (instr : Word) : Reg := (instr.extractLsb' 4 4).toFin

/-- R52 `N = instr[3:0]`. -/
def fieldN (instr : Word) : RowCount := (instr.extractLsb' 0 4).toFin

/-- R52 `NN = instr[7:0]`. -/
def fieldNN (instr : Word) : Byte := instr.extractLsb' 0 8

/-- R52 `NNN = instr[11:0]`. -/
def fieldNNN (instr : Word) : Addr := instr.extractLsb' 0 12

/-- R52 `class = instr[15:12]`. -/
def fieldClass (instr : Word) : BitVec 4 := instr.extractLsb' 12 4

/-- One row of the opcode map of R54. -/
structure OpcodeRow where
  mnemonic : Mnemonic
  value : Word
  mask : Word
  deriving DecidableEq, Repr

/-- The complete opcode map, the 15 rows of R54 in its order. -/
def opcodeTable : List OpcodeRow :=
  [ ⟨.RET,    0x00EE, 0xFFFF⟩,
    ⟨.JP,     0x1000, 0xF000⟩,
    ⟨.CALL,   0x2000, 0xF000⟩,
    ⟨.SE,     0x3000, 0xF000⟩,
    ⟨.LDI,    0x6000, 0xF000⟩,
    ⟨.ADDI,   0x7000, 0xF000⟩,
    ⟨.CPY,    0x8000, 0xF00F⟩,
    ⟨.OR,     0x8001, 0xF00F⟩,
    ⟨.AND,    0x8002, 0xF00F⟩,
    ⟨.XOR,    0x8003, 0xF00F⟩,
    ⟨.LDIDX,  0xA000, 0xF000⟩,
    ⟨.DRW,    0xD000, 0xF000⟩,
    ⟨.RDDT,   0xF007, 0xF0FF⟩,
    ⟨.WRDT,   0xF015, 0xF0FF⟩,
    ⟨.ADDIDX, 0xF01E, 0xF0FF⟩ ]

/-- R54: a word selects the row with `(instr & mask) == match`. -/
def OpcodeRow.selects (row : OpcodeRow) (instr : Word) : Bool := instr &&& row.mask == row.value

/-- The instruction a word of a given row is: the fields of the row's format (R51, R52). -/
def instrOfRow (m : Mnemonic) (instr : Word) : Instr :=
  match m with
  | .RET => .ret
  | .JP => .jp (fieldNNN instr)
  | .CALL => .call (fieldNNN instr)
  | .SE => .se (fieldX instr) (fieldNN instr)
  | .LDI => .ldi (fieldX instr) (fieldNN instr)
  | .ADDI => .addi (fieldX instr) (fieldNN instr)
  | .CPY => .cpy (fieldX instr) (fieldY instr)
  | .OR => .or (fieldX instr) (fieldY instr)
  | .AND => .and (fieldX instr) (fieldY instr)
  | .XOR => .xor (fieldX instr) (fieldY instr)
  | .LDIDX => .ldidx (fieldNNN instr)
  | .DRW => .drw (fieldX instr) (fieldY instr) (fieldN instr)
  | .RDDT => .rddt (fieldX instr)
  | .WRDT => .wrdt (fieldX instr)
  | .ADDIDX => .addidx (fieldX instr)

/-- What a decoder returns for a word or bytes that are no instruction. -/
inductive DecodeError where
  /-- The word matches no row: `Unrecognized(instr)` of R58. -/
  | unrecognized (instr : Word)
  /-- Fewer than the two bytes of an instruction (R51) were given; a step never meets this, since it fetches two. -/
  | truncated
  deriving DecidableEq, Repr

/-- R53: the instruction of the first of some rows that selects the word; at most one row of R54 does, so their order does not
matter. -/
def decodeRows (instr : Word) : List OpcodeRow → Except DecodeError Instr
  | [] => .error (.unrecognized instr)
  | row :: rest => if row.selects instr then .ok (instrOfRow row.mnemonic instr) else decodeRows instr rest

/-- R53, R58: the decoder, total on all 65536 words. -/
def decode (instr : Word) : Except DecodeError Instr := decodeRows instr opcodeTable

/-- R33: a word from its two bytes, the most significant first. -/
def wordOfBytes (hi lo : Byte) : Word := hi ++ lo

/-- R33: the two bytes of a word as memory holds them, the most significant first. -/
def bytesOfWord (instr : Word) : List Byte := [instr.extractLsb' 8 8, instr.extractLsb' 0 8]

/-- The decoder on bytes: one instruction from the front, and the bytes after it. -/
def decodeBytes : List Byte → Except DecodeError (Instr × List Byte)
  | hi :: lo :: rest =>
    match decode (wordOfBytes hi lo) with
    | .ok i => .ok (i, rest)
    | .error e => .error e
  | _ => .error .truncated

/-- The `XNN` layout of R51. -/
def formatXNN (cls : BitVec 4) (x : Reg) (nn : Byte) : Word := cls ++ BitVec.ofFin (w := 4) x ++ nn

/-- The `NNN` layout of R51. -/
def formatNNN (cls : BitVec 4) (nnn : Addr) : Word := cls ++ nnn

/-- The `XYN` layout of R51. -/
def formatXYN (cls : BitVec 4) (x y : Reg) (n : BitVec 4) : Word :=
  cls ++ BitVec.ofFin (w := 4) x ++ BitVec.ofFin (w := 4) y ++ n

/-- The encoder: the word of an instruction, by the formats of R51 and the patterns of R54. -/
def encode : Instr → Word
  | .ret => 0x00EE
  | .jp nnn => formatNNN 0x1 nnn
  | .call nnn => formatNNN 0x2 nnn
  | .se x nn => formatXNN 0x3 x nn
  | .ldi x nn => formatXNN 0x6 x nn
  | .addi x nn => formatXNN 0x7 x nn
  | .cpy x y => formatXYN 0x8 x y 0
  | .or x y => formatXYN 0x8 x y 1
  | .and x y => formatXYN 0x8 x y 2
  | .xor x y => formatXYN 0x8 x y 3
  | .ldidx nnn => formatNNN 0xA nnn
  | .drw x y n => formatXYN 0xD x y (BitVec.ofFin (w := 4) n)
  | .rddt x => formatXNN 0xF x 0x07
  | .wrdt x => formatXNN 0xF x 0x15
  | .addidx x => formatXNN 0xF x 0x1E

/-- The encoder on bytes, most significant first (R33). -/
def encodeBytes (i : Instr) : List Byte := bytesOfWord (encode i)

/-- The word that `nbits` bits of the number `w` are; every bit of the instruction above them is 0. -/
def tableWord (nbits w : Nat) : Word := BitVec.ofNat 16 (w % 2 ^ nbits)

/-- The instruction the decoder reads from the bytes of a table word, laid out as memory holds them. -/
def decodeTableWord (nbits w : Nat) : Option Instr :=
  match decodeBytes (bytesOfWord (tableWord nbits w)) with
  | .ok (i, _) => some i
  | .error _ => none

end Sys2Proof
end

