-- ==== Sys2Proof/Machine/State.lean ====
section
/-! DEFINITION. Machine/State.lean: the complete state of the machine (10_state.md), its memory (R30), and reset (R25, R150).

Three fields are not in the tuple of 10_state.md: `mem`, which R7 names a parameter of the step that no instruction writes;
`params`, the three open parameters (R23), constant from reset on; and `reports`, the report events the engine has emitted to
the host (R8, R111), which the spec calls an observable event of a step. A step of this package has no other argument and no
other output, so they are held here (DESIGN CHOICE, assumption log 1 and 2). -/

namespace Sys2Proof.Machine

/-- Memory as (address, byte) pairs (R30), in the canonical form of `Memory.wf`. -/
abbrev Memory := List Host.Cell

/-- What an unlisted address reads as: `mem[0x000..0xFFF]` is 0x00 each at reset (R25, R38). -/
def Memory.unlisted : Byte := 0x00

/-- The canonical form from an address on: addresses strictly rising, every one an address of `mem` (R30), and no entry equal
to what an unlisted address reads as. -/
def Memory.wfFrom (least : Nat) : List Host.Cell → Bool
  | [] => true
  | (a, v) :: rest => decide (least ≤ a) && decide (a < memSize) && v != Memory.unlisted && Memory.wfFrom (a + 1) rest

/-- The canonical form: equal memories are equal lists. -/
def Memory.wf (m : Memory) : Bool := Memory.wfFrom 0 m

/-- R19: the framebuffer, `fb[row][column]`, 32 rows of 64 one-bit cells. -/
abbrev Framebuffer := Vector (Vector Bool fbWidth) fbHeight

/-- A cell of the framebuffer by its column and row (R19). -/
structure Coord where
  col : Fin fbWidth
  row : Fin fbHeight
  deriving DecidableEq, Repr

/-- R111: the report event `NotImplemented(instr, pc)`. -/
structure Report where
  instr : Word
  pc : Word
  deriving DecidableEq, Repr

/-- The six faults of R122, each with the values `info` records for it.
The spec describes what a fault does to the state (R121), so an instruction TAKES it: `raise` of Machine/Ops.lean gives the
next state with `halted`, `cause` and `info` written. No step of this model answers `Outcome.fault` (DEDUCED, assumption log 3). -/
inductive Fault where
  /-- R123, code 1: raised by the fetch of a step at `pc + 1 >= 4096`. Safe: the spec's own fault. -/
  | fetchOutOfRange (pc : Word)
  /-- R126, code 2: raised by DRW for the first sprite row address of 4096 or more. Safe: the spec's own fault. -/
  | dataOutOfRange (addr pc : Word)
  /-- R124, code 3: raised by CALL at `sp = 16`. Safe: the spec's own fault. -/
  | stackOverflow (pc : Word)
  /-- R125, code 4: raised by RET at `sp = 0`. Safe: the spec's own fault. -/
  | stackUnderflow (pc : Word)
  /-- R127, code 5: raised by DRW under `DRAW_OOB_POLICY = fault` for the first set pixel without a cell. Safe: the spec's
  own fault. -/
  | framebufferOutOfRange (col row : Word)
  /-- R128, code 6: raised at decode under `UNKNOWN_OPCODE_POLICY = fault`. Safe: the spec's own fault. -/
  | illegalInstruction (pc instr : Word)
  deriving DecidableEq, Repr

/-- Why a step could have no meaning. -/
inductive Refusal where
  /-- An arm of `exec` whose instruction has no meaning yet. Safe: nothing is proved of it. No arm is refused now. -/
  | notModelled (mnemonic : String)
  deriving DecidableEq, Repr

/-- The complete state of the machine (10_state.md). -/
structure State where
  /-- R10: `x[0..15]`, 16 general registers of 8 bits. -/
  x : Vector Byte nregs
  /-- R15: the index register, 16 bits. -/
  I : Word
  /-- R12: the program counter, 16 bits. -/
  pc : Word
  /-- R16: `stack[0..15]`, the call stack, 16 entries of 16 bits. -/
  stack : Vector Word stackDepth
  /-- R17: the stack pointer, 0 to 16 inclusive. -/
  sp : Fin (stackDepth + 1)
  /-- R18: the delay timer, 8 bits. -/
  DT : Byte
  /-- R19: the framebuffer cells. -/
  fb : Framebuffer
  /-- R20: the draw-dirty flag. -/
  dirty : Bool
  /-- R21: 1 after a fault, until reset. -/
  halted : Bool
  /-- R21: the code of the fault (R122), 3 bits. -/
  cause : BitVec 3
  /-- R21: `info[0]` and `info[1]`, the values the fault recorded (R122). -/
  info : Word × Word
  /-- R22: sticky, set by an unrecognized word under `skip`. -/
  unimplSeen : Bool
  /-- R22: sticky, set by a DRW with a set pixel out of range under `clip` or `wrap`. -/
  drawOobSeen : Bool
  /-- R30, R44: the memory contents, which no step changes. -/
  mem : Memory
  /-- R23: the open parameters, constant from reset on. -/
  params : Params
  /-- R8, R111: the report events emitted to the host since reset, oldest first. -/
  reports : List Report
  deriving DecidableEq, Repr

/-- R25, R150: the state after reset with given open parameters: `pc = 0x200`, every other field zero. -/
def State.resetWith (p : Params) : State :=
  { x := Vector.replicate nregs 0
    I := 0
    pc := BitVec.ofNat 16 programStart
    stack := Vector.replicate stackDepth 0
    sp := 0
    DT := 0
    fb := Vector.replicate fbHeight (Vector.replicate fbWidth false)
    dirty := false
    halted := false
    cause := 0
    info := (0, 0)
    unimplSeen := false
    drawOobSeen := false
    mem := []
    params := p
    reports := [] }

/-- R25, R150: the machine right after reset, with the open parameters at the values R5 gives as reference
(DESIGN CHOICE, assumption log 7). -/
def State.reset : State := State.resetWith Params.reference

end Sys2Proof.Machine
end

