-- ==== Sys2Proof/Machine/Ops.lean ====
section
/-! DEFINITION. Machine/Ops.lean: the named operations on memory, registers, the stack, the framebuffer and the program
counter, the instruction fetch, and fault entry. Every meaning is written over these. -/

namespace Sys2Proof.Machine

/-! ## Memory (20_memory.md) -/

/-- The byte listed at an address, or what an unlisted address reads as. -/
def Memory.lookup (a : Nat) : List Host.Cell → Byte
  | [] => Memory.unlisted
  | (b, v) :: rest => if b = a then v else Memory.lookup a rest

/-- R9 `MemRead(addr, 1)`: the byte at an address below `MEM_SIZE`; none at any other number, which is no address (R32). -/
def Memory.read? (m : Memory) (a : Nat) : Option Byte :=
  if a < memSize then some (Memory.lookup a m) else none

/-- Put a byte at an address, keeping the canonical form. -/
def Memory.put (a : Nat) (v : Byte) : List Host.Cell → List Host.Cell
  | [] => if v = Memory.unlisted then [] else [(a, v)]
  | (b, w) :: rest =>
    if b < a then (b, w) :: Memory.put a v rest
    else if b = a then (if v = Memory.unlisted then rest else (a, v) :: rest)
    else if v = Memory.unlisted then (b, w) :: rest else (a, v) :: (b, w) :: rest

/-- R9 `MemWrite(addr, 1, v)`, which only the host's LoadImage uses (R44); a number that is no address has no byte to write. -/
def Memory.write (m : Memory) (a : Nat) (v : Byte) : Memory :=
  if a < memSize then Memory.put a v m else m

/-- Write a sequence of bytes at rising addresses. -/
def Memory.writeBytes (m : Memory) (a : Nat) : List Byte → Memory
  | [] => m
  | v :: rest => Memory.writeBytes (Memory.write m a v) (a + 1) rest

/-- R36: read `n` bytes from `base` up; the address is a natural number and never wraps (R32). Answers the first address that
is out of range if there is one. -/
def Memory.readRows (m : Memory) (base : Nat) : Nat → Except Nat (List Byte)
  | 0 => .ok []
  | n + 1 =>
    match Memory.read? m base with
    | none => .error base
    | some v =>
      match Memory.readRows m (base + 1) n with
      | .error a => .error a
      | .ok rest => .ok (v :: rest)

/-- R33, R35: the instruction fetch, `mem[pc] ++ mem[pc+1]` with `pc + 1` a natural number; none when `pc + 1 >= MEM_SIZE`. -/
def fetchWord (s : State) : Option Word :=
  match s.mem.read? s.pc.toNat, s.mem.read? (s.pc.toNat + 1) with
  | some hi, some lo => some (wordOfBytes hi lo)
  | _, _ => none

/-! ## General registers, the index register and the timer (R10, R15, R18) -/

/-- R10: `x[r]`. Every register is an ordinary one. -/
def State.readReg (s : State) (r : Reg) : Byte := s.x[r.val]

/-- R10: `x[r] <- v`. -/
def State.writeReg (s : State) (r : Reg) (v : Byte) : State := { s with x := s.x.set r.val v }

/-- R15: `I <- v`. -/
def State.writeIndex (s : State) (v : Word) : State := { s with I := v }

/-- R18: `DT <- v`. -/
def State.writeTimer (s : State) (v : Byte) : State := { s with DT := v }

/-! ## The program counter (R12, R13) -/

/-- R9: `pc <- target`. -/
def State.jump (s : State) (target : Word) : State := { s with pc := target }

/-- R13: the default advance, `pc <- (pc + 2) mod 65536`. -/
def State.advance (s : State) : State := { s with pc := s.pc + 2 }

/-- R13, R73: the advance of SE when its condition holds, `pc <- (pc + 4) mod 65536`. -/
def State.advanceSkip (s : State) : State := { s with pc := s.pc + 4 }

/-! ## The call stack (R16, R17) -/

/-- R17, R72: push a return address at `stack[sp]` and increment `sp`; none when the stack is full. -/
def State.push? (s : State) (v : Word) : Option State :=
  if h : s.sp.val < stackDepth then
    some { s with stack := s.stack.set s.sp.val v, sp := ⟨s.sp.val + 1, Nat.succ_lt_succ h⟩ }
  else none

/-- R16, R70: the entry `stack[sp - 1]` and the state with `sp` decremented; none when the stack is empty. The popped entry
keeps its value (R16). -/
def State.pop? (s : State) : Option (Word × State) :=
  if h : 0 < s.sp.val then
    have below : s.sp.val - 1 < stackDepth := by have := s.sp.isLt; omega
    some (s.stack[s.sp.val - 1], { s with sp := ⟨s.sp.val - 1, Nat.lt_succ_of_lt below⟩ })
  else none

/-! ## The framebuffer (R19) -/

/-- R19: the cell `fb[row][col]`. -/
def Framebuffer.cell (fb : Framebuffer) (c : Coord) : Bool := fb[c.row.val][c.col.val]

/-- R97: `fb[row][col] <- fb[row][col] ^ 1`. -/
def Framebuffer.toggle (fb : Framebuffer) (c : Coord) : Framebuffer :=
  fb.set c.row.val (fb[c.row.val].set c.col.val (!fb[c.row.val][c.col.val]))

/-- R97: toggle the cells of a list in order, remembering whether any of them was 1 when it was reached. -/
def Framebuffer.blit : List Coord → Framebuffer × Bool → Framebuffer × Bool
  | [], drawn => drawn
  | c :: rest, (fb, hit) => Framebuffer.blit rest (fb.toggle c, hit || fb.cell c)

/-! ## Fault entry (R121, R122) and the report event (R111) -/

/-- R122: the code of a fault. -/
def Fault.code : Fault → BitVec 3
  | .fetchOutOfRange _ => 1
  | .dataOutOfRange _ _ => 2
  | .stackOverflow _ => 3
  | .stackUnderflow _ => 4
  | .framebufferOutOfRange _ _ => 5
  | .illegalInstruction _ _ => 6

/-- R122: `info[0]` and `info[1]` of a fault. -/
def Fault.info : Fault → Word × Word
  | .fetchOutOfRange pc => (pc, 0)
  | .dataOutOfRange addr pc => (addr, pc)
  | .stackOverflow pc => (pc, 0)
  | .stackUnderflow pc => (pc, 0)
  | .framebufferOutOfRange col row => (col, row)
  | .illegalInstruction pc instr => (pc, instr)

/-- R121: fault entry, `raise F(info)`. Only `halted`, `cause` and `info` are written; `pc` still addresses the faulting
instruction and control goes nowhere. There is no return from a fault (R131): no operation clears `halted`, and the way out is
reset (Machine/HostMoves.lean). -/
def State.raise (s : State) (f : Fault) : State :=
  { s with halted := true, cause := f.code, info := f.info }

/-- R9, R111: `report NotImplemented(instr, pc)`, which emits the event and sets `unimpl_seen`. -/
def State.report (s : State) (r : Report) : State :=
  { s with reports := s.reports ++ [r], unimplSeen := true }

/-- R95 phases 3 and 4: write the drawn framebuffer, add `oob` to the sticky `draw_oob_seen`, and set `dirty`. -/
def State.commitDraw (s : State) (fb : Framebuffer) (oob : Bool) : State :=
  { s with fb := fb, drawOobSeen := s.drawOobSeen || oob, dirty := true }

end Sys2Proof.Machine
end

