-- ==== Sys2Proof/Machine/Operands.lean ====
section
/-! DEFINITION. Machine/Operands.lean: the operand forms of the 15 instructions.

An operand is a register (`State.readReg`, R10), an 8-bit immediate used as is, a 12-bit address immediate zero-extended to 16
bits (R52), or, for DRW, the sprite at `I` and the pixels it sets (R95). -/

namespace Sys2Proof.Machine

/-- R52, R9: `zext_16(NNN)`. -/
def addrOperand (nnn : Addr) : Word := nnn.setWidth 16

/-- R91, R9: `zext_16(x[X])`. -/
def zextByte (v : Byte) : Word := v.setWidth 16

/-- A set sprite pixel's target coordinates, natural numbers that are not reduced (R97, D13). -/
structure Pixel where
  col : Nat
  row : Nat
  deriving DecidableEq, Repr

/-- R97: the bit of a row byte that column `c` shows, "the bit at position `(7 - column)`", so bit 7 is the leftmost. -/
def spriteBit (b : Byte) (c : Nat) : Bool := b.getLsbD (7 - c)

/-- R97: the target coordinates of the set bits of one row byte, by column. -/
def rowPixels (px row : Nat) (b : Byte) : List Pixel :=
  (List.range 8).filterMap fun c => if spriteBit b c then some ⟨px + c, row⟩ else none

/-- R97, R95: the target coordinates of a sprite's set bits, ordered by row first and then by column. -/
def spritePixels (px : Nat) : Nat → List Byte → List Pixel
  | _, [] => []
  | row, b :: rest => rowPixels px row b ++ spritePixels px (row + 1) rest

/-- R95 phase 2, R99: a pixel has no cell when its column is 64 or more or its row 32 or more. -/
def Pixel.outOfRange (p : Pixel) : Bool := decide (fbWidth ≤ p.col) || decide (fbHeight ≤ p.row)

/-- R95 phase 2: the set pixels that have no cell, in the same order. -/
def oobPixels (ps : List Pixel) : List Pixel := ps.filter Pixel.outOfRange

/-- R99 `wrap`: the cell `fb[row mod 32][col mod 64]`; for a pixel in range, its own cell. -/
def Pixel.wrapped (p : Pixel) : Coord :=
  { col := ⟨p.col % fbWidth, Nat.mod_lt _ (by decide)⟩, row := ⟨p.row % fbHeight, Nat.mod_lt _ (by decide)⟩ }

/-- R95 phase 3: the cell a set pixel toggles. A pixel in range toggles its own cell under every policy; one out of range is
dropped under `clip` and wrapped under `wrap`. Under `fault` an out-of-range pixel never comes here, since the instruction
has faulted. -/
def Pixel.target (policy : DrawOobPolicy) (p : Pixel) : Option Coord :=
  if p.outOfRange then
    match policy with
    | .fault => none
    | .clip => none
    | .wrap => some p.wrapped
  else some p.wrapped

/-- R95 phase 3: the cells a sprite toggles, in the order they are drawn. -/
def drawTargets (policy : DrawOobPolicy) (ps : List Pixel) : List Coord := ps.filterMap (Pixel.target policy)

/-- R96: the `N` sprite rows at `I`, or the first row address out of range. -/
def State.spriteRows (s : State) (n : RowCount) : Except Nat (List Byte) := s.mem.readRows s.I.toNat n.val

end Sys2Proof.Machine
end

