-- ==== Sys2Proof/Machine/Flags.lean ====
section
/-! DEFINITION. Machine/Flags.lean: the flag computations.

The hardware has no flag register (R11). Its one flag is DRW's collision result in `x[15]`; ADDI, OR, AND, XOR, CPY and ADDIDX
write none (R11, R89). -/

namespace Sys2Proof.Machine

/-- R97, R11: the value DRW leaves in `x[15]`, 1 when some cell went from 1 to 0 and 0 otherwise. -/
def collisionFlag (hit : Bool) : Byte := if hit then 1 else 0

end Sys2Proof.Machine
end

