-- ==== Sys2Proof/Machine/ControlFlow.lean ====
section
/-! DEFINITION. Machine/ControlFlow.lean: RET, JP, CALL and SE (40_control_flow.md). -/

namespace Sys2Proof.Machine

/-- RET, R70: `pc <- stack[sp - 1]`, `sp <- sp - 1`; StackUnderflow when `sp = 0` (R125). -/
def execRet (s : State) : Host.Outcome State Fault Refusal :=
  match s.pop? with
  | none => .next (s.raise (.stackUnderflow s.pc))
  | some (target, popped) => .next (popped.jump target)

/-- JP, R71: `pc <- zext_16(NNN)`. -/
def execJp (nnn : Addr) (s : State) : Host.Outcome State Fault Refusal :=
  .next (s.jump (addrOperand nnn))

/-- CALL, R72: `stack[sp] <- pc + 2`, `sp <- sp + 1`, `pc <- zext_16(NNN)`; StackOverflow when `sp = 16` (R124). -/
def execCall (nnn : Addr) (s : State) : Host.Outcome State Fault Refusal :=
  match s.push? (s.pc + 2) with
  | none => .next (s.raise (.stackOverflow s.pc))
  | some pushed => .next (pushed.jump (addrOperand nnn))

/-- SE, R73: `pc + 4` if `x[X] == NN`, else `pc + 2`. -/
def execSe (x : Reg) (nn : Byte) (s : State) : Host.Outcome State Fault Refusal :=
  if s.readReg x = nn then .next s.advanceSkip else .next s.advance

end Sys2Proof.Machine
end

