-- ==== Sys2Proof/Machine/Draw.lean ====
section
/-! DEFINITION. Machine/Draw.lean: DRW (44_draw.md). -/

namespace Sys2Proof.Machine

/-- R100: the set pixels of a sprite at the position `x[X]`, `x[Y]`, sampled from the state before the instruction. -/
def State.drawPixels (s : State) (x y : Reg) (rows : List Byte) : List Pixel :=
  spritePixels (s.readReg x).toNat (s.readReg y).toNat rows

/-- R95 phases 3 and 4: draw the pixels, leave the collision result in `x[15]`, record out-of-range pixels, set `dirty`,
advance. -/
def State.drawSprite (s : State) (ps : List Pixel) : State :=
  let drawn := Framebuffer.blit (drawTargets s.params.drawOob ps) (s.fb, false)
  ((s.writeReg Reg.vf (collisionFlag drawn.2)).commitDraw drawn.1 (!(oobPixels ps).isEmpty)).advance

/-- R95 phase 2: the pixel a DRW faults on, the first set pixel without a cell under `DRAW_OOB_POLICY = fault`. -/
def State.drawFault? (s : State) (ps : List Pixel) : Option Pixel :=
  match s.params.drawOob with
  | .fault => (oobPixels ps).head?
  | .clip => none
  | .wrap => none

/-- DRW, R95: read the sprite (DataOutOfRange, R126), check its set pixels (FramebufferOutOfRange, R127), draw. Both faults
come before any write. -/
def execDrw (x y : Reg) (n : RowCount) (s : State) : Host.Outcome State Fault Refusal :=
  match s.spriteRows n with
  | .error a => .next (s.raise (.dataOutOfRange (BitVec.ofNat 16 a) s.pc))
  | .ok rows =>
    let ps := s.drawPixels x y rows
    match s.drawFault? ps with
    | some p => .next (s.raise (.framebufferOutOfRange (BitVec.ofNat 16 p.col) (BitVec.ofNat 16 p.row)))
    | none => .next (s.drawSprite ps)

end Sys2Proof.Machine
end

