-- ==== Sys2Proof/Machine/Immediate.lean ====
section
/-! DEFINITION. Machine/Immediate.lean: LDI and ADDI (41_immediate.md). -/

namespace Sys2Proof.Machine

/-- LDI, R80: `x[X] <- NN`. -/
def execLdi (x : Reg) (nn : Byte) (s : State) : Host.Outcome State Fault Refusal :=
  .next (s.writeReg x nn).advance

/-- ADDI, R81: `x[X] <- (x[X] + NN) mod 256`; no flag. -/
def execAddi (x : Reg) (nn : Byte) (s : State) : Host.Outcome State Fault Refusal :=
  .next (s.writeReg x (s.readReg x + nn)).advance

end Sys2Proof.Machine
end

