-- ==== Sys2Proof/Machine/Index.lean ====
section
/-! DEFINITION. Machine/Index.lean: LDIDX and ADDIDX (43_index.md). -/

namespace Sys2Proof.Machine

/-- LDIDX, R90: `I <- zext_16(NNN)`. -/
def execLdidx (nnn : Addr) (s : State) : Host.Outcome State Fault Refusal :=
  .next (s.writeIndex (addrOperand nnn)).advance

/-- ADDIDX, R91: `I <- (I + zext_16(x[X])) mod 65536`; no flag (D21). -/
def execAddidx (x : Reg) (s : State) : Host.Outcome State Fault Refusal :=
  .next (s.writeIndex (s.I + zextByte (s.readReg x))).advance

end Sys2Proof.Machine
end

