-- ==== Sys2Proof/Machine/RegisterOps.lean ====
section
/-! DEFINITION. Machine/RegisterOps.lean: CPY, OR, AND and XOR (42_register_ops.md). None writes `x[15]` but as its own
destination (R89). -/

namespace Sys2Proof.Machine

/-- CPY, R85: `x[X] <- x[Y]`. -/
def execCpy (x y : Reg) (s : State) : Host.Outcome State Fault Refusal :=
  .next (s.writeReg x (s.readReg y)).advance

/-- OR, R86: `x[X] <- x[X] | x[Y]`. -/
def execOr (x y : Reg) (s : State) : Host.Outcome State Fault Refusal :=
  .next (s.writeReg x (s.readReg x ||| s.readReg y)).advance

/-- AND, R87: `x[X] <- x[X] & x[Y]`. -/
def execAnd (x y : Reg) (s : State) : Host.Outcome State Fault Refusal :=
  .next (s.writeReg x (s.readReg x &&& s.readReg y)).advance

/-- XOR, R88: `x[X] <- x[X] ^ x[Y]`. -/
def execXor (x y : Reg) (s : State) : Host.Outcome State Fault Refusal :=
  .next (s.writeReg x (s.readReg x ^^^ s.readReg y)).advance

end Sys2Proof.Machine
end

