-- ==== Sys2Proof/Machine/Timer.lean ====
section
/-! DEFINITION. Machine/Timer.lean: RDDT and WRDT (45_timer.md). -/

namespace Sys2Proof.Machine

/-- RDDT, R105: `x[X] <- DT`. -/
def execRddt (x : Reg) (s : State) : Host.Outcome State Fault Refusal :=
  .next (s.writeReg x s.DT).advance

/-- WRDT, R106: `DT <- x[X]`. -/
def execWrdt (x : Reg) (s : State) : Host.Outcome State Fault Refusal :=
  .next (s.writeTimer (s.readReg x)).advance

end Sys2Proof.Machine
end

