-- ==== Sys2Proof/Machine/Dispatch.lean ====
section
/-! DEFINITION. Machine/Dispatch.lean: one arm per instruction of R54. -/

namespace Sys2Proof.Machine

def exec (i : Instr) (s : State) : Host.Outcome State Fault Refusal :=
  match i with
  | .ret => Sys2Proof.Machine.execRet s
  | .jp nnn => Sys2Proof.Machine.execJp nnn s
  | .call nnn => Sys2Proof.Machine.execCall nnn s
  | .se x nn => Sys2Proof.Machine.execSe x nn s
  | .ldi x nn => Sys2Proof.Machine.execLdi x nn s
  | .addi x nn => Sys2Proof.Machine.execAddi x nn s
  | .cpy x y => Sys2Proof.Machine.execCpy x y s
  | .or x y => Sys2Proof.Machine.execOr x y s
  | .and x y => Sys2Proof.Machine.execAnd x y s
  | .xor x y => Sys2Proof.Machine.execXor x y s
  | .ldidx nnn => Sys2Proof.Machine.execLdidx nnn s
  | .drw x y n => Sys2Proof.Machine.execDrw x y n s
  | .rddt x => Sys2Proof.Machine.execRddt x s
  | .wrdt x => Sys2Proof.Machine.execWrdt x s
  | .addidx x => Sys2Proof.Machine.execAddidx x s

end Sys2Proof.Machine
end

