-- ==== Sys2Proof/Machine/Unrecognized.lean ====
section
/-! DEFINITION. Machine/Unrecognized.lean: a word that matches no row of the opcode table (46_unrecognized.md). -/

namespace Sys2Proof.Machine

/-- R111: under `skip`, report `NotImplemented(instr, pc)`, set `unimpl_seen`, advance by 2. -/
def skipUnrecognized (instr : Word) (s : State) : Host.Outcome State Fault Refusal :=
  .next (s.report { instr := instr, pc := s.pc }).advance

/-- R112: under `fault`, raise IllegalInstruction. -/
def faultUnrecognized (instr : Word) (s : State) : Host.Outcome State Fault Refusal :=
  .next (s.raise (.illegalInstruction s.pc instr))

/-- R110: the behaviour of an unrecognized word, by `UNKNOWN_OPCODE_POLICY`. -/
def execUnrecognized (instr : Word) (s : State) : Host.Outcome State Fault Refusal :=
  match s.params.unknownOpcode with
  | .skip => skipUnrecognized instr s
  | .fault => faultUnrecognized instr s

end Sys2Proof.Machine
end

