-- ==== Sys2Proof/Machine/Step.lean ====
section
/-! DEFINITION. Machine/Step.lean: the engine step (R50), and the placing of one instruction where the next step fetches. -/

namespace Sys2Proof.Machine

/-- R50: the step on a fetched word: execute the instruction of its row, or the rule for unrecognized words. -/
def runWord (instr : Word) (s : State) : Host.Outcome State Fault Refusal :=
  match decode instr with
  | .ok i => exec i s
  | .error _ => execUnrecognized instr s

/-- R50: one engine step, fetch, decode and execute. A halted engine is stuck: "a `step` request has no effect" (R121), so a
step request leaves its state as it is (DEDUCED, assumption log 4); `exec` itself does not look at `halted` (DESIGN CHOICE, log 11). -/
def step (s : State) : Host.Outcome State Fault Refusal :=
  if s.halted then .next s
  else
    match fetchWord s with
    | none => .next (s.raise (.fetchOutOfRange s.pc))
    | some instr => runWord instr s

/-- The state with the instruction of a table word stored at `pc`, most significant byte first (R33), where the next step
fetches. A program comes to run from reset by the host's LoadImage (R152), which this stands for (DESIGN CHOICE,
assumption log 5). -/
def State.withFetchWord (s : State) (nbits w : Nat) : State :=
  { s with mem := s.mem.writeBytes s.pc.toNat (bytesOfWord (tableWord nbits w)) }

end Sys2Proof.Machine
end

