-- ==== Sys2Proof/Machine/HostMoves.lean ====
section
/-! DEFINITION. Machine/HostMoves.lean: what the host does (R133 to R139, R150 to R152).

Before the machine runs: Reset and LoadImage. While it runs: Step, Tick, RenderAck, Observe and Stop, each atomic and each only
between engine steps (R42). The host has no other move (R139). -/

namespace Sys2Proof.Machine

/-! ## Reset and LoadImage -/

/-- R150: Reset, from any state, halted or not: every field at its reset value, the open parameters fixed anew. -/
def State.hostReset (_ : State) (p : Params) : State := State.resetWith p

/-- R152: why a load is rejected. It is a load-time error, none of the engine's faults. -/
inductive LoadError where
  /-- The image is longer than `MEM_SIZE - PROGRAM_START`. -/
  | imageTooLarge
  deriving DecidableEq, Repr

/-- R152: LoadImage copies the image to 0x200 upward, or rejects it whole. The image is opaque (R153). -/
def State.loadImage (s : State) (image : List Byte) : Except LoadError State :=
  if imageMax < image.length then .error .imageTooLarge
  else .ok { s with mem := s.mem.writeBytes programStart image }

/-- R151, R152: the launch state, Reset and then a successful LoadImage; none if the load is rejected, since then the machine
must not start. -/
def launch (p : Params) (image : List Byte) : Option State :=
  match (State.resetWith p).loadImage image with
  | .ok s => some s
  | .error _ => none

/-! ## The moves of R133 -/

/-- The moves of the host while the machine runs (R133). -/
inductive HostMove where
  | step
  | tick
  | renderAck
  | observe
  | stop
  deriving DecidableEq, Repr

/-- What the host gets from a move (R133, column "what the host gets"; its shape a DESIGN CHOICE, assumption log 12). -/
inductive HostReply where
  /-- Tick gives nothing. -/
  | nothing
  /-- Step gives possibly a report event or a fault, the fault as its `cause` and `info` (R121). -/
  | stepped (report : Option Report) (fault : Option (BitVec 3 × Word × Word))
  /-- RenderAck gives the grid. -/
  | grid (fb : Framebuffer)
  /-- Observe gives any state, read-only, and Stop the state as it stands. -/
  | view (s : State)
  deriving DecidableEq, Repr

/-- R134: the effect of Tick on the timer, which saturates at zero. -/
def tickTimer (dt : Byte) : Byte := if dt = 0 then dt else dt - 1

/-- R134: the move Tick; none when `TIMER_TICK_ENABLE` is false, since then it does not exist. -/
def State.tick? (s : State) : Option State :=
  if s.params.timerTickEnable then some { s with DT := tickTimer s.DT } else none

/-- R136: the move RenderAck, which reads the whole grid and clears `dirty`; none when `dirty = 0`, its precondition. -/
def State.renderAck? (s : State) : Option (Framebuffer × State) :=
  if s.dirty then some (s.fb, { s with dirty := false }) else none

/-- What an engine step from one state to the next gives the host (R133). -/
def stepReply (s t : State) : HostReply :=
  .stepped (t.reports.drop s.reports.length).head? (if t.halted then some (t.cause, t.info) else none)

/-- R133: a move of the host, its reply and the state after it; none when its precondition fails. -/
def State.hostMove? (s : State) : HostMove → Option (HostReply × State)
  | .step =>
    if s.halted then none
    else
      match step s with
      | .next t => some (stepReply s t, t)
      | .fault _ => none
      | .refused _ => none
  | .tick =>
    match s.tick? with
    | some t => some (.nothing, t)
    | none => none
  | .renderAck =>
    match s.renderAck? with
    | some (fb, t) => some (.grid fb, t)
    | none => none
  | .observe => some (.view s, s)
  | .stop => some (.view s, s)

/-- A schedule of moves from a state (R42: an execution is an interleaving of steps and host moves in a total order). A move
whose precondition fails cannot be in a schedule; after Stop the host requests nothing further (R138), so the run has ended
and nothing may follow (DEDUCED, assumption log 8). -/
def State.runMoves? (s : State) : List HostMove → Option State
  | [] => some s
  | .stop :: rest => if rest.isEmpty then some s else none
  | m :: rest =>
    match s.hostMove? m with
    | some (_, t) => t.runMoves? rest
    | none => none

end Sys2Proof.Machine
end

