-- ==== Sys2Proof/Safety.lean ====
section
/-! DEFINITION. Safety.lean: the terms claims are stated in, runs and reachable states, the invariants of a state, and what an
instruction keeps (its frame). -/

namespace Sys2Proof.Machine

/-! ## Runs -/

/-- No fault has halted the engine. A halted state is never the end of a successful run (R121, D5). -/
def State.running (s : State) : Prop := s.halted = false

/-- R138: the natural end of a run, a state whose `pc` addresses a JP to that same address, not halted. -/
def State.atFixedPoint (s : State) : Prop :=
  s.halted = false ∧ ∃ nnn : Addr, addrOperand nnn = s.pc ∧ fetchWord s = some (encode (.jp nnn))

/-- One atomic transition of the whole state (R42): an engine step or another move of the host
(DEDUCED, assumption log 10). -/
def Transition (s t : State) : Prop := step s = .next t ∨ ∃ m reply, s.hostMove? m = some (reply, t)

/-- The states a run can be in: the launch state of any parameters and image that loads (R152), and what any interleaving of
engine steps and host moves leads to (R42). -/
inductive Reachable : State → Prop where
  | launched (p : Params) (image : List Byte) (s : State) (h : launch p image = some s) : Reachable s
  | moved (s t : State) (hs : Reachable s) (h : Transition s t) : Reachable t

/-! ## Invariants -/

/-- R21, R122: `cause` and `info` are zero while the engine runs, and `cause` is a fault's code after a fault. -/
def State.faultStatusConsistent (s : State) : Prop :=
  (s.halted = false → s.cause = 0 ∧ s.info = (0, 0)) ∧ (s.halted = true → 1 ≤ s.cause.toNat ∧ s.cause.toNat ≤ 6)

/-- R22: `unimpl_seen` remembers whether a report was ever made. -/
def State.reportsRemembered (s : State) : Prop := s.unimplSeen = !s.reports.isEmpty

/-- R22, R99: each sticky bit is set only under the policies that set it. -/
def State.stickyBitsMatchPolicy (s : State) : Prop :=
  (s.params.unknownOpcode = .fault → s.unimplSeen = false) ∧ (s.params.drawOob = .fault → s.drawOobSeen = false)

/-- R13, R70: `pc` is at most 0x1002 and the entries in use on the stack lie between 0x0002 and 0x1000. -/
def State.addressesBounded (s : State) : Prop :=
  s.pc.toNat ≤ 0x1002 ∧ ∀ k : Fin stackDepth, k.val < s.sp.val → 2 ≤ (s.stack[k.val]).toNat ∧ (s.stack[k.val]).toNat ≤ 0x1000

/-- The invariant of this model: canonical memory and consistent fault status, sticky bits and addresses. -/
def State.Inv (s : State) : Prop :=
  s.mem.wf = true ∧ s.faultStatusConsistent ∧ s.reportsRemembered ∧ s.stickyBitsMatchPolicy ∧ s.addressesBounded

/-! ## Frames -/

/-- Every general register but `d` keeps its value. -/
def KeepsRegistersBut (d : Reg) (s t : State) : Prop := ∀ r : Reg, r ≠ d → t.readReg r = s.readReg r

/-- Every general register keeps its value. -/
def KeepsRegisters (s t : State) : Prop := ∀ r : Reg, t.readReg r = s.readReg r

/-- The stack pointer and every stack entry keep their values. -/
def KeepsStack (s t : State) : Prop := t.sp = s.sp ∧ ∀ k : Fin stackDepth, t.stack[k.val] = s.stack[k.val]

/-- Every stack entry but number `k` keeps its value. -/
def KeepsStackEntriesBut (k : Nat) (s t : State) : Prop :=
  ∀ j : Fin stackDepth, j.val ≠ k → t.stack[j.val] = s.stack[j.val]

/-- Every framebuffer cell, `dirty` and `draw_oob_seen` keep their values. -/
def KeepsDisplay (s t : State) : Prop :=
  (∀ c : Coord, t.fb.cell c = s.fb.cell c) ∧ t.dirty = s.dirty ∧ t.drawOobSeen = s.drawOobSeen

/-- The fault status keeps its value. -/
def KeepsFaultStatus (s t : State) : Prop := t.halted = s.halted ∧ t.cause = s.cause ∧ t.info = s.info

/-- The report bit and the reports made keep their values. -/
def KeepsReports (s t : State) : Prop := t.unimplSeen = s.unimplSeen ∧ t.reports = s.reports

/-- Every number reads in memory as it did: each address the same byte, and each other number no byte. -/
def KeepsMemory (s t : State) : Prop := ∀ a : Nat, t.mem.read? a = s.mem.read? a

/-- What no instruction ever writes when it completes: the fault status, the reports, memory and the open parameters. -/
def KeepsSystem (s t : State) : Prop :=
  KeepsFaultStatus s t ∧ KeepsReports s t ∧ KeepsMemory s t ∧ t.params = s.params

/-- An instruction wrote `pc` and the register `d`, and nothing else. -/
def WritesOnlyRegister (d : Reg) (s t : State) : Prop :=
  KeepsRegistersBut d s t ∧ t.I = s.I ∧ KeepsStack s t ∧ t.DT = s.DT ∧ KeepsDisplay s t ∧ KeepsSystem s t

/-- An instruction wrote `pc`, and nothing else. -/
def WritesOnlyPc (s t : State) : Prop :=
  KeepsRegisters s t ∧ t.I = s.I ∧ KeepsStack s t ∧ t.DT = s.DT ∧ KeepsDisplay s t ∧ KeepsSystem s t

/-- R13: the default advance, `pc` plus 2 modulo 65536. -/
def AdvancesBy (n : Nat) (s t : State) : Prop := t.pc.toNat = (s.pc.toNat + n) % 65536

/-- R10, the last column of its table: the register an instruction writes. -/
def destination : Instr → Option Reg
  | .ret => none
  | .jp _ => none
  | .call _ => none
  | .se _ _ => none
  | .ldi x _ => some x
  | .addi x _ => some x
  | .cpy x _ => some x
  | .or x _ => some x
  | .and x _ => some x
  | .xor x _ => some x
  | .ldidx _ => none
  | .drw _ _ _ => some Reg.vf
  | .rddt x => some x
  | .wrdt _ => none
  | .addidx _ => none

/-- R121: the state after a fault with a code and recorded values, everything else as before the step. -/
def State.faulted (s : State) (code : BitVec 3) (info0 info1 : Word) : State :=
  { s with halted := true, cause := code, info := (info0, info1) }

/-! ## Sprites, in the terms of R95 to R99 -/

/-- R96: the `N` sprite rows at `I` all lie in memory. -/
def State.spriteReadable (s : State) (n : RowCount) : Prop := n.val = 0 ∨ s.I.toNat + n.val ≤ memSize

/-- R97: row `r`, column `c` of the sprite at `I` is a set pixel, bit `7 - c` of the byte at `I + r`. -/
def State.pixelSet (s : State) (n : RowCount) (r c : Nat) : Prop :=
  r < n.val ∧ c < 8 ∧ ∃ b : Byte, s.mem.read? (s.I.toNat + r) = some b ∧ b.getLsbD (7 - c) = true

/-- R97: the column and the row a sprite pixel is drawn at, natural numbers. -/
def State.pixelCol (s : State) (x : Reg) (c : Nat) : Nat := (s.readReg x).toNat + c

/-- R97: see `State.pixelCol`. -/
def State.pixelRow (s : State) (y : Reg) (r : Nat) : Nat := (s.readReg y).toNat + r

/-- R99: the set pixel at row `r`, column `c` has no cell. -/
def State.pixelOutside (s : State) (x y : Reg) (n : RowCount) (r c : Nat) : Prop :=
  s.pixelSet n r c ∧ (fbWidth ≤ s.pixelCol x c ∨ fbHeight ≤ s.pixelRow y r)

/-- R95 phase 2: some set pixel has no cell. -/
def State.someOutside (s : State) (x y : Reg) (n : RowCount) : Prop := ∃ r c, s.pixelOutside x y n r c

/-- R95 phase 2: the first pixel without a cell, ordered by row first and then by column. -/
def State.firstOutside (s : State) (x y : Reg) (n : RowCount) (r c : Nat) : Prop :=
  s.pixelOutside x y n r c ∧ ∀ r' c', s.pixelOutside x y n r' c' → r < r' ∨ (r = r' ∧ c ≤ c')

/-- R97, R99: some set pixel is drawn at the cell: a pixel in range at its own cell, and under `wrap` every pixel at its
coordinates modulo 64 and 32. -/
def State.drawnAt (s : State) (x y : Reg) (n : RowCount) (cell : Coord) : Prop :=
  ∃ r c, s.pixelSet n r c ∧
    ((s.pixelCol x c = cell.col.val ∧ s.pixelRow y r = cell.row.val) ∨
     (s.params.drawOob = .wrap ∧ s.pixelCol x c % fbWidth = cell.col.val ∧ s.pixelRow y r % fbHeight = cell.row.val))

/-- R24: two states a program cannot tell apart. They agree on everything but `dirty`, the sticky bits, the reports, and the
recorded `cause` and `info`. -/
def SameToProgram (s t : State) : Prop :=
  t.x = s.x ∧ t.I = s.I ∧ t.pc = s.pc ∧ t.stack = s.stack ∧ t.sp = s.sp ∧ t.DT = s.DT ∧ t.fb = s.fb ∧
  t.halted = s.halted ∧ t.mem = s.mem ∧ t.params = s.params

end Sys2Proof.Machine
end

