-- ==== Sys2Proof/Certificates/Slice0/Obligations.lean ====
section
/-! DEFINITION. Certificates/Slice0/Obligations.lean: the statements for the provers, from the spec's numbered rules. -/

open Sys2Proof Sys2Proof.Machine

/-! ## Decoding and encoding (30_encoding.md) -/

/-- 95_test_vectors.md section 2.1: words of every family decode to the instructions the spec's table lists for them, and some
words that look like instructions are unrecognized. -/
def Obligations.SampleWordsDecode : Prop :=
  decode 0x00EE = .ok .ret ∧ decode 0x1ABC = .ok (.jp 0xABC) ∧ decode 0x2FFF = .ok (.call 0xFFF) ∧
  decode 0x3C7F = .ok (.se 12 0x7F) ∧ decode 0x6F00 = .ok (.ldi 15 0x00) ∧ decode 0x70FF = .ok (.addi 0 0xFF) ∧
  decode 0x8AB0 = .ok (.cpy 10 11) ∧ decode 0x8011 = .ok (.or 0 1) ∧ decode 0x8FF2 = .ok (.and 15 15) ∧
  decode 0x8123 = .ok (.xor 1 2) ∧ decode 0xA000 = .ok (.ldidx 0x000) ∧ decode 0xD5A3 = .ok (.drw 5 10 3) ∧
  decode 0xF907 = .ok (.rddt 9) ∧ decode 0xF015 = .ok (.wrdt 0) ∧ decode 0xFE1E = .ok (.addidx 14) ∧
  decode 0x0000 = .error (.unrecognized 0x0000) ∧ decode 0x01EE = .error (.unrecognized 0x01EE) ∧
  decode 0x8014 = .error (.unrecognized 0x8014) ∧ decode 0xF114 = .error (.unrecognized 0xF114)

/-- By the opcode map of R54, every instruction is well-formed (R60), its word decodes to it with every operand it has, and so do its two bytes with
any bytes after them. -/
def Obligations.DecodeOfEncodeIsTheInstruction : Prop :=
  ∀ (i : Instr) (rest : List Byte),
    i.wellFormed = true ∧ decode (encode i) = .ok i ∧ decodeBytes (encodeBytes i ++ rest) = .ok (i, rest)

/-- By the opcode map of R54, a recognized word is the encoding of the one instruction it decodes to: the fields are all the word holds. -/
def Obligations.DecodedWordIsItsEncoding : Prop :=
  ∀ (w : Word) (i : Instr), decode w = .ok i → encode i = w

/-- The spec's inference in R53, "The rows of rule R54 are pairwise disjoint, so at most one row matches any word": the rows can
be tried in any order, since whichever row selects the word, the decoder answers that row's instruction. -/
def Obligations.OpcodeRowsDisjoint : Prop :=
  ∀ (w : Word) (row : OpcodeRow), row ∈ opcodeTable → row.selects w = true →
    (∀ other ∈ opcodeTable, other.selects w = true → other = row) ∧ decode w = .ok (instrOfRow row.mnemonic w)

/-- The spec's inference in R55, the map class by class: which words are unrecognized; and its own decision D4 (R56): only the
word 0x00EE is RET. -/
def Obligations.UnrecognizedWordsByClass : Prop :=
  (∀ w : Word, decode w = .error (.unrecognized w) ↔
    (fieldClass w = 0x0 ∧ w ≠ 0x00EE) ∨ fieldClass w = 0x4 ∨ fieldClass w = 0x5 ∨ (fieldClass w = 0x8 ∧ 4 ≤ (fieldN w).val) ∨
    fieldClass w = 0x9 ∨ fieldClass w = 0xB ∨ fieldClass w = 0xC ∨ fieldClass w = 0xE ∨
    (fieldClass w = 0xF ∧ fieldNN w ≠ 0x07 ∧ fieldNN w ≠ 0x15 ∧ fieldNN w ≠ 0x1E)) ∧
  (∀ w : Word, decode w = .ok .ret ↔ w = 0x00EE)

/-- The spec's inference in R58: the decoder is total: an instruction, or `Unrecognized(instr)` for that very word. -/
def Obligations.DecoderTotal : Prop :=
  ∀ w : Word, (∃ i, decode w = .ok i) ∨ decode w = .error (.unrecognized w)

/-- The spec's own assembler syntax, its decision D20 (R60): a written line is an instruction exactly when its operands are those of its mnemonic, each in its range, and then it is
that instruction's own line; an operand out of range is an error and no truncation. -/
def Obligations.WrittenLinesAndInstructions : Prop :=
  ∀ l : AsmLine, (l.wellFormed = true ↔ ∃ i, l.toInstr? = some i) ∧ ∀ i : Instr, l.toInstr? = some i ↔ l = i.toAsm

/-! ## The engine step (R50, 20_memory.md) -/

/-- The instruction cycle of R50. A halted engine makes no step; a fetch past memory faults; a recognized word runs its
instruction; any other word takes the rule for unrecognized words. That the fetch is part of the step is the spec's own decision
D1, the halt D5; that a step request of a halted engine answers the same state is the model's reading (assumption log 4). -/
def Obligations.StepFollowsInstructionCycle : Prop :=
  ∀ s : State,
    (s.halted = true → step s = .next s) ∧
    (s.halted = false → memSize ≤ s.pc.toNat + 1 → step s = .next (s.faulted 1 s.pc 0)) ∧
    (s.halted = false → ∀ hi lo : Byte, s.mem.read? s.pc.toNat = some hi → s.mem.read? (s.pc.toNat + 1) = some lo →
      (∀ i, decode (hi ++ lo) = .ok i → step s = exec i s) ∧
      (∀ e, decode (hi ++ lo) = .error e → step s = execUnrecognized (hi ++ lo) s))

/-- R33: an instruction fetch within memory composes the bytes at `pc` and `pc + 1`, the most significant first. -/
def Obligations.FetchIsBigEndian : Prop :=
  ∀ s : State, s.pc.toNat + 1 < memSize → ∃ hi lo : Byte,
    s.mem.read? s.pc.toNat = some hi ∧ s.mem.read? (s.pc.toNat + 1) = some lo ∧ fetchWord s = some (hi ++ lo)

/-- The fetch's bounds check, with `pc + 1` a natural number: at `pc + 1 >= 4096` there is no word, and a running engine raises
FetchOutOfRange with `pc` recorded. Rests on the spec's own decisions D27, D5 and D6 (R35, R121, R122). -/
def Obligations.FetchBoundsChecked : Prop :=
  ∀ s : State, memSize ≤ s.pc.toNat + 1 →
    fetchWord s = none ∧ (s.halted = false → step s = .next (s.faulted 1 s.pc 0))

/-- The model's own placing of a word (assumption log 5): it is what the next step fetches and runs, the memory keeps its
canonical form and every byte but the two at `pc` and `pc + 1`, and the placed state is the old one with only `mem` changed. -/
def Obligations.PlacedWordIsFetched : Prop :=
  ∀ (s : State) (w : Word), s.mem.wf = true → s.halted = false → s.pc.toNat + 1 < memSize →
    fetchWord (s.withFetchWord 16 w.toNat) = some w ∧
    step (s.withFetchWord 16 w.toNat) = runWord w (s.withFetchWord 16 w.toNat) ∧
    (s.withFetchWord 16 w.toNat).mem.wf = true ∧
    s.withFetchWord 16 w.toNat = { s with mem := (s.withFetchWord 16 w.toNat).mem } ∧
    ∀ a, a ≠ s.pc.toNat → a ≠ s.pc.toNat + 1 → (s.withFetchWord 16 w.toNat).mem.read? a = s.mem.read? a

/-- An unrecognized word under `skip` reports, sets `unimpl_seen` and advances by 2; nothing else changes (R111). The event and
the sticky bit are the spec's own decision D3; holding the events in the state is the model's choice (assumption log 2). -/
def Obligations.UnrecognizedWordSkipped : Prop :=
  ∀ (s : State) (w : Word), s.halted = false → fetchWord s = some w → decode w = .error (.unrecognized w) →
    s.params.unknownOpcode = .skip →
    ∃ t, step s = .next t ∧ t.unimplSeen = true ∧ t.reports = s.reports ++ [⟨w, s.pc⟩] ∧ AdvancesBy 2 s t ∧
      KeepsRegisters s t ∧ t.I = s.I ∧ KeepsStack s t ∧ t.DT = s.DT ∧ KeepsDisplay s t ∧ KeepsFaultStatus s t ∧
      KeepsMemory s t ∧ t.params = s.params

/-- An unrecognized word under `fault` raises IllegalInstruction; `pc` and `unimpl_seen` keep their values (R112). Rests on the
spec's own decisions D2, D5 and D6. -/
def Obligations.UnrecognizedWordFaults : Prop :=
  ∀ (s : State) (w : Word), s.halted = false → fetchWord s = some w → decode w = .error (.unrecognized w) →
    s.params.unknownOpcode = .fault →
    step s = .next (s.faulted 6 s.pc w)

/-! ## Control flow (40_control_flow.md) -/

/-- R71: JP sets `pc` to `NNN` and writes nothing else. -/
def Obligations.JumpSetsPc : Prop :=
  ∀ (nnn : Addr) (s : State), ∃ t, exec (.jp nnn) s = .next t ∧ t.pc.toNat = nnn.toNat ∧ WritesOnlyPc s t

/-- R73: SE advances by 4 when the register equals the immediate and by 2 when it does not, and writes nothing else. -/
def Obligations.SkipIfEqualAdvances : Prop :=
  ∀ (x : Reg) (nn : Byte) (s : State), ∃ t, exec (.se x nn) s = .next t ∧ WritesOnlyPc s t ∧
    (s.readReg x = nn → AdvancesBy 4 s t) ∧ (s.readReg x ≠ nn → AdvancesBy 2 s t)

/-- R72, with the fault entry of the spec's own decisions D5, D6 and D9: CALL with room pushes `pc + 2` at the old `sp`, increments `sp` and sets `pc`; with a full stack it raises
StackOverflow and writes nothing of the instruction. -/
def Obligations.CallPushesOrOverflows : Prop :=
  ∀ (nnn : Addr) (s : State),
    (∀ k : Fin stackDepth, s.sp.val = k.val → ∃ t, exec (.call nnn) s = .next t ∧
      (t.stack[k.val]).toNat = (s.pc.toNat + 2) % 65536 ∧ t.sp.val = k.val + 1 ∧ t.pc.toNat = nnn.toNat ∧
      KeepsStackEntriesBut k.val s t ∧ KeepsRegisters s t ∧ t.I = s.I ∧ t.DT = s.DT ∧ KeepsDisplay s t ∧ KeepsSystem s t) ∧
    (s.sp.val = stackDepth → exec (.call nnn) s = .next (s.faulted 3 s.pc 0))

/-- R70, with the fault entry of the spec's own decisions D5, D6 and D9: RET with an entry sets `pc` to it and decrements `sp`, the entry keeping its value; with an empty stack it raises
StackUnderflow and writes nothing of the instruction. -/
def Obligations.ReturnPopsOrUnderflows : Prop :=
  ∀ s : State,
    (∀ k : Fin stackDepth, s.sp.val = k.val + 1 → ∃ t, exec .ret s = .next t ∧ t.pc = s.stack[k.val] ∧ t.sp.val = k.val ∧
      (∀ j : Fin stackDepth, t.stack[j.val] = s.stack[j.val]) ∧ KeepsRegisters s t ∧ t.I = s.I ∧ t.DT = s.DT ∧
      KeepsDisplay s t ∧ KeepsSystem s t) ∧
    (s.sp.val = 0 → exec .ret s = .next (s.faulted 4 s.pc 0))

/-- By R72 and R70 (95_test_vectors.md S4), a CALL and then a RET come back to the address after the CALL with `sp` as it was. -/
def Obligations.ReturnUndoesCall : Prop :=
  ∀ (nnn : Addr) (s : State), s.sp.val < stackDepth →
    ∃ t u, exec (.call nnn) s = .next t ∧ exec .ret t = .next u ∧ AdvancesBy 2 s u ∧ u.sp = s.sp ∧
      KeepsStackEntriesBut s.sp.val s u ∧ KeepsRegisters s u ∧ u.I = s.I ∧ u.DT = s.DT ∧ KeepsDisplay s u ∧ KeepsSystem s u

/-- The spec's inference in R71 and R138: a JP to its own address is a fixed point of the engine, for any number of steps. -/
def Obligations.JumpToSelfIsFixedPoint : Prop :=
  ∀ s : State, s.atFixedPoint → ∀ k : Nat, Sys2Proof.core.run k s = .next s

/-! ## Immediate and register instructions (41_immediate.md, 42_register_ops.md) -/

/-- R80: LDI sets `x[X]` to `NN`, advances by 2 and writes nothing else. -/
def Obligations.LoadImmediateResult : Prop :=
  ∀ (x : Reg) (nn : Byte) (s : State), ∃ t, exec (.ldi x nn) s = .next t ∧ t.readReg x = nn ∧ AdvancesBy 2 s t ∧
    WritesOnlyRegister x s t

/-- R81: ADDI adds modulo 256, records no carry, and writes nothing else. -/
def Obligations.AddImmediateResult : Prop :=
  ∀ (x : Reg) (nn : Byte) (s : State), ∃ t, exec (.addi x nn) s = .next t ∧
    (t.readReg x).toNat = ((s.readReg x).toNat + nn.toNat) % 256 ∧ AdvancesBy 2 s t ∧ WritesOnlyRegister x s t

/-- R85: CPY copies `x[Y]` to `x[X]` and writes nothing else. -/
def Obligations.CopyResult : Prop :=
  ∀ (x y : Reg) (s : State), ∃ t, exec (.cpy x y) s = .next t ∧ t.readReg x = s.readReg y ∧ AdvancesBy 2 s t ∧
    WritesOnlyRegister x s t

/-- R86, R87, R88: OR, AND and XOR combine the two registers bit by bit into `x[X]` and write nothing else, so `x[15]`
changes only as the destination. -/
def Obligations.BitwiseResults : Prop :=
  ∀ (x y : Reg) (s : State),
    (∃ t, exec (.or x y) s = .next t ∧ AdvancesBy 2 s t ∧ WritesOnlyRegister x s t ∧
      ∀ k, (t.readReg x).getLsbD k = ((s.readReg x).getLsbD k || (s.readReg y).getLsbD k)) ∧
    (∃ t, exec (.and x y) s = .next t ∧ AdvancesBy 2 s t ∧ WritesOnlyRegister x s t ∧
      ∀ k, (t.readReg x).getLsbD k = ((s.readReg x).getLsbD k && (s.readReg y).getLsbD k)) ∧
    (∃ t, exec (.xor x y) s = .next t ∧ AdvancesBy 2 s t ∧ WritesOnlyRegister x s t ∧
      ∀ k, (t.readReg x).getLsbD k = ((s.readReg x).getLsbD k ^^ (s.readReg y).getLsbD k))

/-! ## Index register and timer (43_index.md, 45_timer.md) -/

/-- R90: LDIDX loads `I` with `NNN`, zero-extended, advances by 2 and writes nothing else. -/
def Obligations.LoadIndexResult : Prop :=
  ∀ (nnn : Addr) (s : State), ∃ t, exec (.ldidx nnn) s = .next t ∧ t.I.toNat = nnn.toNat ∧ AdvancesBy 2 s t ∧
    KeepsRegisters s t ∧ KeepsStack s t ∧ t.DT = s.DT ∧ KeepsDisplay s t ∧ KeepsSystem s t

/-- ADDIDX adds `x[X]` to `I` modulo 65536, advances by 2 and writes nothing else, so no flag. That no carry flag is written is
the spec's own decision D21 (R91). -/
def Obligations.AddIndexResult : Prop :=
  ∀ (x : Reg) (s : State), ∃ t, exec (.addidx x) s = .next t ∧
    t.I.toNat = (s.I.toNat + (s.readReg x).toNat) % 65536 ∧ AdvancesBy 2 s t ∧
    KeepsRegisters s t ∧ KeepsStack s t ∧ t.DT = s.DT ∧ KeepsDisplay s t ∧ KeepsSystem s t

/-- R105, R106: RDDT copies `DT` to `x[X]`, WRDT copies `x[X]` to `DT`; both advance by 2 and write nothing else. -/
def Obligations.TimerResults : Prop :=
  ∀ (x : Reg) (s : State),
    (∃ t, exec (.rddt x) s = .next t ∧ t.readReg x = s.DT ∧ AdvancesBy 2 s t ∧ WritesOnlyRegister x s t) ∧
    (∃ t, exec (.wrdt x) s = .next t ∧ t.DT = s.readReg x ∧ AdvancesBy 2 s t ∧
      KeepsRegisters s t ∧ t.I = s.I ∧ KeepsStack s t ∧ KeepsDisplay s t ∧ KeepsSystem s t)

/-- By R105 and the Tick of the spec's own decision D15 (R134), with the tick enabled, RDDT after WRDT of `v` and `k` Ticks reads `v` less `k`, and 0 from `k = v` on. -/
def Obligations.TimerReadAfterTicks : Prop :=
  ∀ (x y : Reg) (s t : State) (k : Nat), s.params.timerTickEnable = true → exec (.wrdt x) s = .next t →
    ∃ u v, t.runMoves? (List.replicate k .tick) = some u ∧ exec (.rddt y) u = .next v ∧
      (v.readReg y).toNat = (s.readReg x).toNat - k

/-! ## Drawing (44_draw.md) -/

/-- By R126 and the spec's own decisions D5, D6, D8 and D12 (R96, R121, R122, R129), a DRW whose sprite runs past memory raises DataOutOfRange, whatever its pixels, recording the first address
out of range; nothing of the instruction is written. -/
def Obligations.DrawPastMemoryFaults : Prop :=
  ∀ (x y : Reg) (n : RowCount) (s : State), 1 ≤ n.val → memSize ≤ s.I.toNat + n.val - 1 →
    exec (.drw x y n) s = .next (s.faulted 2 (BitVec.ofNat 16 (max s.I.toNat memSize)) s.pc)

/-- A set pixel without a cell, by the spec's own decisions D5, D6, D10 and D13 (R99, R127). Under `fault` the instruction raises FramebufferOutOfRange for the first one and
writes nothing; under `clip` and `wrap` it completes and sets `draw_oob_seen`. -/
def Obligations.DrawOutsideFramebuffer : Prop :=
  ∀ (x y : Reg) (n : RowCount) (s : State) (r c : Nat), s.spriteReadable n → s.firstOutside x y n r c →
    (s.params.drawOob = .fault →
      exec (.drw x y n) s =
        .next (s.faulted 5 (BitVec.ofNat 16 (s.pixelCol x c)) (BitVec.ofNat 16 (s.pixelRow y r)))) ∧
    (s.params.drawOob ≠ .fault →
      ∃ t, exec (.drw x y n) s = .next t ∧ KeepsFaultStatus s t ∧ t.drawOobSeen = true ∧ t.dirty = true)

/-- DRW by R95 and R97 to R100, with the spec's own decisions D10, D11 and D13: a DRW that no fault stops completes. It complements exactly the cells set pixels are drawn at, leaves 1
in `x[15]` when one of those cells was 1 and 0 otherwise, adds an out-of-range pixel to `draw_oob_seen`, sets `dirty`, advances
by 2, and writes nothing else. Coordinates and sprite are those of the state before it. -/
def Obligations.DrawResult : Prop :=
  ∀ (x y : Reg) (n : RowCount) (s : State), s.spriteReadable n → (s.params.drawOob = .fault → ¬ s.someOutside x y n) →
    ∃ t, exec (.drw x y n) s = .next t ∧
      (∀ cell : Coord, (s.drawnAt x y n cell → t.fb.cell cell = !s.fb.cell cell) ∧
        (¬ s.drawnAt x y n cell → t.fb.cell cell = s.fb.cell cell)) ∧
      ((∃ cell, s.drawnAt x y n cell ∧ s.fb.cell cell = true) → t.readReg 15 = 1) ∧
      ((¬ ∃ cell, s.drawnAt x y n cell ∧ s.fb.cell cell = true) → t.readReg 15 = 0) ∧
      (s.someOutside x y n → t.drawOobSeen = true) ∧ (¬ s.someOutside x y n → t.drawOobSeen = s.drawOobSeen) ∧
      t.dirty = true ∧ AdvancesBy 2 s t ∧
      KeepsRegistersBut 15 s t ∧ t.I = s.I ∧ KeepsStack s t ∧ t.DT = s.DT ∧ KeepsSystem s t

/-- The spec's inference in R101 (c): a DRW of no rows is valid for every `I`, under every policy: it clears `x[15]`, sets `dirty` and advances. -/
def Obligations.DrawNoRows : Prop :=
  ∀ (x y : Reg) (s : State), ∃ t, exec (.drw x y 0) s = .next t ∧ t.readReg 15 = 0 ∧ t.dirty = true ∧ AdvancesBy 2 s t ∧
    (∀ cell : Coord, t.fb.cell cell = s.fb.cell cell) ∧ t.drawOobSeen = s.drawOobSeen ∧
    KeepsRegistersBut 15 s t ∧ t.I = s.I ∧ KeepsStack s t ∧ t.DT = s.DT ∧ KeepsSystem s t

/-- The spec's inference in R101 (a): within one DRW no cell is toggled twice, under every policy. -/
def Obligations.NoCellToggledTwice : Prop :=
  ∀ (policy : DrawOobPolicy) (px py : Nat) (rows : List Byte), rows.length ≤ 15 →
    (drawTargets policy (spritePixels px py rows)).Nodup

/-- The same DRW twice from the same position restores every cell, the spec's inference in R101 (b). What is said of `x[15]` is
not R101 (b) but what R95's pseudocode gives, which the model follows by its own choice (DEDUCED, assumption log 6): the second
DRW leaves 1 exactly when it turns a cell off, that is when some cell a pixel is drawn at was 0 before the first. R101 (b) says
1 whenever a pixel was drawn, and the two differ when every such cell was 1 before the first. -/
def Obligations.DrawTwiceRestores : Prop :=
  ∀ (x y : Reg) (n : RowCount) (s t : State), s.spriteReadable n → (s.params.drawOob = .fault → ¬ s.someOutside x y n) →
    exec (.drw x y n) s = .next t → t.readReg x = s.readReg x → t.readReg y = s.readReg y →
    ∃ u, exec (.drw x y n) t = .next u ∧ (∀ cell : Coord, u.fb.cell cell = s.fb.cell cell) ∧
      ((∃ cell, s.drawnAt x y n cell ∧ s.fb.cell cell = false) → u.readReg 15 = 1) ∧
      ((¬ ∃ cell, s.drawnAt x y n cell ∧ s.fb.cell cell = false) → u.readReg 15 = 0)

/-- R99, the spec's own decision D10: a sprite whose set pixels all lie inside the framebuffer behaves identically under all three policies. -/
def Obligations.PoliciesAgreeInside : Prop :=
  ∀ (x y : Reg) (n : RowCount) (s t : State) (policy : DrawOobPolicy), s.spriteReadable n → ¬ s.someOutside x y n →
    exec (.drw x y n) s = .next t →
    exec (.drw x y n) { s with params := { s.params with drawOob := policy } } =
      .next { t with params := { t.params with drawOob := policy } }

/-! ## Faults (60_exceptions.md) -/

/-- R121, the spec's own decisions D5 and D7: fault entry is precise and the halt is final. A step that halts the engine writes nothing but `halted`, `cause` and
`info`; a halted engine's step request has no effect; and no step or host move clears or rewrites the fault. -/
def Obligations.FaultsPreciseAndFinal : Prop :=
  ∀ s t : State,
    (step s = .next t → s.halted = false → t.halted = true → t = s.faulted t.cause t.info.1 t.info.2 ∧ t.cause ≠ 0) ∧
    (s.halted = true → step s = .next s) ∧
    (Transition s t → s.halted = true → KeepsFaultStatus s t)

/-- The model's reading: a step and every instruction answer a next state from every state. That a fault is a next state with its
status written is assumption log 3 (DEDUCED from R121); that a step request of a halted engine answers the same state is
assumption log 4 (DEDUCED from R121; R50 says that no step is possible then). -/
def Obligations.StepAlwaysAnswersNext : Prop :=
  ∀ s : State, (∃ t, step s = .next t) ∧ ∀ i : Instr, ∃ t, exec i s = .next t

/-! ## Whole-machine rules -/

/-- The spec's inference in R10 and R11: no instruction writes a general register but the one its row of R10's table names. -/
def Obligations.OnlyDestinationRegisterWritten : Prop :=
  ∀ (i : Instr) (s t : State) (r : Reg), exec i s = .next t → destination i ≠ some r → t.readReg r = s.readReg r

/-- The spec's inference in R74: after an instruction that completes and is none of RET, JP, CALL and SE, `pc` is 2 further. -/
def Obligations.OnlyControlFlowRedirects : Prop :=
  ∀ (i : Instr) (s t : State), exec i s = .next t → s.halted = false → t.halted = false →
    i ≠ .ret → (∀ nnn, i ≠ .jp nnn) → (∀ nnn, i ≠ .call nnn) → (∀ x nn, i ≠ .se x nn) → AdvancesBy 2 s t

/-- By R16 and R17, only CALL writes a stack entry, and only CALL and RET move `sp`. -/
def Obligations.OnlyCallAndReturnUseStack : Prop :=
  ∀ (i : Instr) (s t : State), exec i s = .next t → (∀ nnn, i ≠ .call nnn) →
    (∀ k : Fin stackDepth, t.stack[k.val] = s.stack[k.val]) ∧ (i ≠ .ret → t.sp = s.sp)

/-- By R15 and R18, only LDIDX and ADDIDX write `I`, and only WRDT writes `DT`. -/
def Obligations.OnlyTheirInstructionsWriteIndexAndTimer : Prop :=
  ∀ (i : Instr) (s t : State), exec i s = .next t →
    ((∀ nnn, i ≠ .ldidx nnn) → (∀ x, i ≠ .addidx x) → t.I = s.I) ∧ ((∀ x, i ≠ .wrdt x) → t.DT = s.DT)

/-- By R19 and R20, only DRW writes a framebuffer cell, `dirty` or `draw_oob_seen`, and the engine never clears `dirty`. -/
def Obligations.OnlyDrawWritesDisplay : Prop :=
  (∀ (i : Instr) (s t : State), exec i s = .next t → (∀ x y n, i ≠ .drw x y n) → KeepsDisplay s t) ∧
  (∀ s t : State, step s = .next t → s.dirty = true → t.dirty = true)

/-- No engine step and no host move changes a byte of memory or an open parameter, by the spec's own decisions D2 and D19 (R23,
R44). -/
def Obligations.MemoryAndParametersConstant : Prop :=
  ∀ s t : State, Transition s t → KeepsMemory s t ∧ t.params = s.params

/-- No step and no host move clears a sticky bit, the spec's own decision D3 (R22). -/
def Obligations.StickyBitsNeverCleared : Prop :=
  ∀ s t : State, Transition s t →
    (s.unimplSeen = true → t.unimplSeen = true) ∧ (s.drawOobSeen = true → t.drawOobSeen = true)

/-- By R111, with the spec's own decision D3 and the event list of assumption log 2, a step reports exactly the unrecognized word it skips, with its address, and nothing otherwise. -/
def Obligations.ReportsAreTheSkippedWords : Prop :=
  ∀ s t : State, step s = .next t →
    (∀ w, s.halted = false → s.params.unknownOpcode = .skip → fetchWord s = some w → decode w = .error (.unrecognized w) →
      t.reports = s.reports ++ [⟨w, s.pc⟩]) ∧
    ((¬ ∃ w, s.halted = false ∧ s.params.unknownOpcode = .skip ∧ fetchWord s = some w ∧
        decode w = .error (.unrecognized w)) → t.reports = s.reports ∧ t.unimplSeen = s.unimplSeen)

/-- By R24, a program cannot tell apart two states that differ only in `dirty`, the sticky bits, the reports, `cause` and `info`:
each step of one is matched by a step of the other to states that again differ in nothing else. -/
def Obligations.HostVisibleStateDoesNotLeak : Prop :=
  ∀ s s' t : State, SameToProgram s s' → step s = .next t → ∃ t', step s' = .next t' ∧ SameToProgram t t'

/-! ## Invariants -/

/-- The invariant `State.Inv` holds after reset, under any open parameters. -/
def Obligations.ResetSatisfiesInvariant : Prop :=
  State.reset.Inv ∧ ∀ p : Params, (State.resetWith p).Inv

/-- Every engine step keeps the invariant (by R13, R17, R21, R22, R44 and R70, with the spec's own decisions D3, D5 and D6): canonical memory, a fault status that is zero until a fault
and a fault's code after it, sticky bits only under the policies that set them, `pc` at most 0x1002 and pushed addresses
between 0x0002 and 0x1000. -/
def Obligations.StepKeepsInvariant : Prop :=
  ∀ s t : State, s.Inv → step s = .next t → t.Inv

/-- Every state of a run satisfies the invariant: the launch state of any image that loads under any open parameters, by the
spec's own decision D22, and what any interleaving of steps and host moves leads to, by its decision D16 and the model's
reading of it in `Transition` (DEDUCED, assumption log 10). The bounds on `pc` and pushed addresses rest on R13, R17 and R70,
the fault status and the sticky bits on the spec's own decisions D3, D5 and D6. -/
def Obligations.ReachableStatesSatisfyInvariant : Prop :=
  ∀ s : State, Reachable s → s.Inv

/-! ## Reset, load and the host (60_exceptions.md, 70_reset_and_hazards.md) -/

/-- The values after reset, from any state and under any open parameters (R25, R150). The framebuffer and `dirty` at 0 are the
spec's own decision D14, the status fields D5 and D3, the one complete reset D22. -/
def Obligations.ResetValues : Prop :=
  ∀ (s : State) (p : Params),
    (∀ r : Reg, (s.hostReset p).readReg r = 0) ∧ (s.hostReset p).I = 0 ∧ (s.hostReset p).pc = 0x200 ∧
    (∀ k : Fin stackDepth, (s.hostReset p).stack[k.val] = 0) ∧ (s.hostReset p).sp.val = 0 ∧ (s.hostReset p).DT = 0 ∧
    (∀ c : Coord, (s.hostReset p).fb.cell c = false) ∧ (s.hostReset p).dirty = false ∧ (s.hostReset p).halted = false ∧
    (s.hostReset p).cause = 0 ∧ (s.hostReset p).info = (0, 0) ∧ (s.hostReset p).unimplSeen = false ∧
    (s.hostReset p).drawOobSeen = false ∧ (∀ a, a < memSize → (s.hostReset p).mem.read? a = some 0) ∧
    (s.hostReset p).params = p

/-- LoadImage, R152 with the spec's own decision D22: an image of at most 3584 bytes loads whole at 0x200, every other byte 0 and every other field at its reset value; a
longer one is rejected, and the machine does not start. -/
def Obligations.LoadImageAllOrNothing : Prop :=
  ∀ (p : Params) (image : List Byte),
    (image.length ≤ 3584 → ∃ t, launch p image = some t ∧ t = { State.resetWith p with mem := t.mem } ∧
      (∀ k (h : k < image.length), t.mem.read? (0x200 + k) = some image[k]) ∧
      (∀ a, a < memSize → a < 0x200 ∨ 0x200 + image.length ≤ a → t.mem.read? a = some 0)) ∧
    (3584 < image.length →
      (State.resetWith p).loadImage image = .error .imageTooLarge ∧ launch p image = none)

/-- Tick, the spec's own decision D15 (R134), exists exactly when enabled, decrements `DT` by one down to zero, and changes nothing else. -/
def Obligations.TickSaturates : Prop :=
  ∀ s : State,
    (s.params.timerTickEnable = true → ∃ t, s.hostMove? .tick = some (.nothing, t) ∧ t.DT.toNat = s.DT.toNat - 1 ∧
      t = { s with DT := t.DT }) ∧
    (s.params.timerTickEnable = false → s.hostMove? .tick = none)

/-- RenderAck, the spec's own decision D16 (R136), exists exactly when `dirty` is set, gives the whole grid, and changes nothing but `dirty`. -/
def Obligations.RenderAckHandsOverFrame : Prop :=
  ∀ s : State,
    (s.dirty = true → s.hostMove? .renderAck = some (.grid s.fb, { s with dirty := false })) ∧
    (s.dirty = false → s.hostMove? .renderAck = none)

/-- By the spec's own decision D16 (R133, R139), the host's moves other than Step write nothing but `DT`, by Tick, and `dirty`, by RenderAck; the move Step exists
exactly while the engine is not halted and is the engine step. -/
def Obligations.HostMovesWriteOnlyTimerAndDirty : Prop :=
  (∀ (m : HostMove) (s t : State) (reply : HostReply), m ≠ .step → s.hostMove? m = some (reply, t) →
    t = { s with DT := t.DT, dirty := t.dirty } ∧ (m ≠ .tick → t.DT = s.DT) ∧ (m ≠ .renderAck → t.dirty = s.dirty)) ∧
  (∀ s : State, (s.halted = true → s.hostMove? .step = none) ∧
    (s.halted = false → ∀ t, step s = .next t → s.hostMove? .step = some (stepReply s t, t)))
end

