-- ==== Sys2Proof/Laws/PerInstr.lean ====
section
/-! SUPPORT. Laws/PerInstr.lean: statements about every instruction as syntax, one lemma per constructor.

`MatchesItsRow`: the word of an instruction has the fixed bits of the opcode table's row of its mnemonic (R54). -/

namespace Sys2Proof.Laws

/-! ## MatchesItsRow -/

/-- R54: the encoding has the row's fixed bits under the row's mask, for the row of the instruction's mnemonic. -/
def MatchesItsRow.Statement (i : Instr) : Prop :=
  ∃ row ∈ opcodeTable, row.mnemonic = i.mnemonic ∧ encode i &&& row.mask = row.value

/-- A field under a mask of ones is itself. -/
theorem field_and_ones (v : BitVec 4) : v &&& 0xF = v := BitVec.and_allOnes (x := v)

/-- A byte under a mask of ones is itself. -/
theorem byte_and_ones (v : Byte) : v &&& 0xFF = v := BitVec.and_allOnes (x := v)

/-- A field under a mask of zeros is 0. -/
theorem field_and_zeros {w : Nat} (v : BitVec w) : v &&& 0 = 0 := by simp

/-- The fixed bits of an `NNN` word are its class. -/
theorem formatNNN_and (cls : BitVec 4) (nnn : Addr) : formatNNN cls nnn &&& 0xF000 = formatNNN cls 0 := by
  rw [formatNNN, show (0xF000 : Word) = (0xF : BitVec 4) ++ (0 : Addr) from rfl, BitVec.and_append, field_and_ones,
    field_and_zeros]
  rfl

/-- The fixed bits of an `XNN` word whose `NN` is an immediate are its class. -/
theorem formatXNN_and_class (cls : BitVec 4) (x : Reg) (nn : Byte) :
    formatXNN cls x nn &&& 0xF000 = formatXNN cls 0 0 := by
  rw [formatXNN, show (0xF000 : Word) = (0xF : BitVec 4) ++ (0 : BitVec 4) ++ (0 : Byte) from rfl,
    BitVec.and_append, BitVec.and_append, field_and_ones, field_and_zeros, field_and_zeros]
  rfl

/-- The fixed bits of an `XNN` word whose `NN` is a function code are its class and that code. -/
theorem formatXNN_and_code (cls : BitVec 4) (x : Reg) (nn : Byte) :
    formatXNN cls x nn &&& 0xF0FF = formatXNN cls 0 nn := by
  rw [formatXNN, show (0xF0FF : Word) = (0xF : BitVec 4) ++ (0 : BitVec 4) ++ (0xFF : Byte) from rfl,
    BitVec.and_append, BitVec.and_append, field_and_ones, field_and_zeros, byte_and_ones]
  rfl

/-- The fixed bits of an `XYN` word whose `N` is a function code are its class and that code. -/
theorem formatXYN_and_code (cls : BitVec 4) (x y : Reg) (n : BitVec 4) :
    formatXYN cls x y n &&& 0xF00F = formatXYN cls 0 0 n := by
  rw [formatXYN, show (0xF00F : Word) = (0xF : BitVec 4) ++ (0 : BitVec 4) ++ (0 : BitVec 4) ++ (0xF : BitVec 4) from rfl,
    BitVec.and_append, BitVec.and_append, BitVec.and_append, field_and_zeros, field_and_zeros, field_and_ones, field_and_ones]
  rfl

/-- The fixed bits of an `XYN` word whose `N` is an operand are its class. -/
theorem formatXYN_and_class (cls : BitVec 4) (x y : Reg) (n : BitVec 4) :
    formatXYN cls x y n &&& 0xF000 = formatXYN cls 0 0 0 := by
  rw [formatXYN, show (0xF000 : Word) = (0xF : BitVec 4) ++ (0 : BitVec 4) ++ (0 : BitVec 4) ++ (0 : BitVec 4) from rfl,
    BitVec.and_append, BitVec.and_append, BitVec.and_append, field_and_zeros, field_and_zeros, field_and_zeros, field_and_ones]
  rfl

theorem MatchesItsRow.ret : MatchesItsRow.Statement .ret := ⟨⟨.RET, 0x00EE, 0xFFFF⟩, by decide, rfl, rfl⟩
theorem MatchesItsRow.jp (nnn : Addr) : MatchesItsRow.Statement (.jp nnn) :=
  ⟨⟨.JP, 0x1000, 0xF000⟩, by decide, rfl, formatNNN_and 0x1 nnn⟩
theorem MatchesItsRow.call (nnn : Addr) : MatchesItsRow.Statement (.call nnn) :=
  ⟨⟨.CALL, 0x2000, 0xF000⟩, by decide, rfl, formatNNN_and 0x2 nnn⟩
theorem MatchesItsRow.se (x : Reg) (nn : Byte) : MatchesItsRow.Statement (.se x nn) :=
  ⟨⟨.SE, 0x3000, 0xF000⟩, by decide, rfl, formatXNN_and_class 0x3 x nn⟩
theorem MatchesItsRow.ldi (x : Reg) (nn : Byte) : MatchesItsRow.Statement (.ldi x nn) :=
  ⟨⟨.LDI, 0x6000, 0xF000⟩, by decide, rfl, formatXNN_and_class 0x6 x nn⟩
theorem MatchesItsRow.addi (x : Reg) (nn : Byte) : MatchesItsRow.Statement (.addi x nn) :=
  ⟨⟨.ADDI, 0x7000, 0xF000⟩, by decide, rfl, formatXNN_and_class 0x7 x nn⟩
theorem MatchesItsRow.cpy (x y : Reg) : MatchesItsRow.Statement (.cpy x y) :=
  ⟨⟨.CPY, 0x8000, 0xF00F⟩, by decide, rfl, formatXYN_and_code 0x8 x y 0⟩
theorem MatchesItsRow.or (x y : Reg) : MatchesItsRow.Statement (.or x y) :=
  ⟨⟨.OR, 0x8001, 0xF00F⟩, by decide, rfl, formatXYN_and_code 0x8 x y 1⟩
theorem MatchesItsRow.and (x y : Reg) : MatchesItsRow.Statement (.and x y) :=
  ⟨⟨.AND, 0x8002, 0xF00F⟩, by decide, rfl, formatXYN_and_code 0x8 x y 2⟩
theorem MatchesItsRow.xor (x y : Reg) : MatchesItsRow.Statement (.xor x y) :=
  ⟨⟨.XOR, 0x8003, 0xF00F⟩, by decide, rfl, formatXYN_and_code 0x8 x y 3⟩
theorem MatchesItsRow.ldidx (nnn : Addr) : MatchesItsRow.Statement (.ldidx nnn) :=
  ⟨⟨.LDIDX, 0xA000, 0xF000⟩, by decide, rfl, formatNNN_and 0xA nnn⟩
theorem MatchesItsRow.drw (x y : Reg) (n : RowCount) : MatchesItsRow.Statement (.drw x y n) :=
  ⟨⟨.DRW, 0xD000, 0xF000⟩, by decide, rfl, formatXYN_and_class 0xD x y (BitVec.ofFin (w := 4) n)⟩
theorem MatchesItsRow.rddt (x : Reg) : MatchesItsRow.Statement (.rddt x) :=
  ⟨⟨.RDDT, 0xF007, 0xF0FF⟩, by decide, rfl, formatXNN_and_code 0xF x 0x07⟩
theorem MatchesItsRow.wrdt (x : Reg) : MatchesItsRow.Statement (.wrdt x) :=
  ⟨⟨.WRDT, 0xF015, 0xF0FF⟩, by decide, rfl, formatXNN_and_code 0xF x 0x15⟩
theorem MatchesItsRow.addidx (x : Reg) : MatchesItsRow.Statement (.addidx x) :=
  ⟨⟨.ADDIDX, 0xF01E, 0xF0FF⟩, by decide, rfl, formatXNN_and_code 0xF x 0x1E⟩

end Sys2Proof.Laws
end

