-- ==== Sys2Proof/Laws/Decode.lean ====
section
/-! SUPPORT. Laws/Decode.lean: the fields of a word and the formats are inverse, and the decoder class by class (R53, R55). -/

namespace Sys2Proof

/-! ## A word is made of its fields (R51, R52) -/

/-- Two neighbouring fields of a word are one field. -/
theorem join_fields (w : Word) (lo len hi len' : Nat) (h : hi = lo + len) :
    w.extractLsb' hi len' ++ w.extractLsb' lo len = w.extractLsb' lo (len' + len) :=
  BitVec.extractLsb'_append_extractLsb'_eq_extractLsb' h

/-- A field of a field of a word. -/
theorem field_of_field (w : Word) (start len start' len' : Nat) (h : start' + len' ≤ len) :
    (w.extractLsb' start len).extractLsb' start' len' = w.extractLsb' (start + start') len' := by
  ext i hi
  simp only [BitVec.getElem_extractLsb', BitVec.getLsbD_extractLsb', Nat.add_assoc]
  rw [decide_eq_true (by omega), Bool.true_and]

theorem formatNNN_fields (w : Word) : formatNNN (fieldClass w) (fieldNNN w) = w := by
  exact (join_fields w 0 12 12 4 (by decide)).trans BitVec.extractLsb'_eq_self

theorem formatXNN_fields (w : Word) : formatXNN (fieldClass w) (fieldX w) (fieldNN w) = w := by
  rw [formatXNN, fieldClass, fieldX, fieldNN, join_fields w 8 4 12 4 (by decide)]
  exact (join_fields w 0 8 8 8 (by decide)).trans BitVec.extractLsb'_eq_self

theorem formatXYN_fields (w : Word) :
    formatXYN (fieldClass w) (fieldX w) (fieldY w) (BitVec.ofFin (w := 4) (fieldN w)) = w := by
  rw [formatXYN, fieldClass, fieldX, fieldY, fieldN, join_fields w 8 4 12 4 (by decide)]
  rw [join_fields w 4 4 8 (4 + 4) (by decide)]
  exact (join_fields w 0 4 4 (4 + 4 + 4) (by decide)).trans BitVec.extractLsb'_eq_self

/-! ## The fields of a format (R51, R52) -/

@[simp] theorem fieldClass_formatNNN (c : BitVec 4) (n : Addr) : fieldClass (formatNNN c n) = c :=
  BitVec.extractLsb'_append_eq_left

@[simp] theorem fieldNNN_formatNNN (c : BitVec 4) (n : Addr) : fieldNNN (formatNNN c n) = n :=
  BitVec.extractLsb'_append_eq_right

theorem formatXNN_eq_NNN (c : BitVec 4) (x : Reg) (nn : Byte) :
    formatXNN c x nn = formatNNN c (BitVec.ofFin (w := 4) x ++ nn) := by
  rw [formatXNN, formatNNN, BitVec.append_assoc]; rfl

theorem formatXYN_eq_XNN (c : BitVec 4) (x y : Reg) (n : BitVec 4) :
    formatXYN c x y n = formatXNN c x (BitVec.ofFin (w := 4) y ++ n) := by
  rw [formatXYN, formatXNN, BitVec.append_assoc]; rfl

@[simp] theorem fieldClass_formatXNN (c : BitVec 4) (x : Reg) (nn : Byte) : fieldClass (formatXNN c x nn) = c := by
  rw [formatXNN_eq_NNN, fieldClass_formatNNN]

@[simp] theorem fieldClass_formatXYN (c : BitVec 4) (x y : Reg) (n : BitVec 4) : fieldClass (formatXYN c x y n) = c := by
  rw [formatXYN_eq_XNN, fieldClass_formatXNN]

@[simp] theorem fieldNN_formatXNN (c : BitVec 4) (x : Reg) (nn : Byte) : fieldNN (formatXNN c x nn) = nn :=
  BitVec.extractLsb'_append_eq_right

@[simp] theorem fieldX_formatXNN (c : BitVec 4) (x : Reg) (nn : Byte) : fieldX (formatXNN c x nn) = x := by
  have h : (formatXNN c x nn).extractLsb' 8 4 = BitVec.ofFin (w := 4) x := by
    have h1 : (formatXNN c x nn).extractLsb' 8 8 = c ++ BitVec.ofFin (w := 4) x := BitVec.extractLsb'_append_eq_left
    rw [← field_of_field (formatXNN c x nn) 8 8 0 4 (by decide), h1]; exact BitVec.extractLsb'_append_eq_right
  rw [fieldX, h]

@[simp] theorem fieldX_formatXYN (c : BitVec 4) (x y : Reg) (n : BitVec 4) : fieldX (formatXYN c x y n) = x := by
  rw [formatXYN_eq_XNN, fieldX_formatXNN]

@[simp] theorem fieldY_formatXYN (c : BitVec 4) (x y : Reg) (n : BitVec 4) : fieldY (formatXYN c x y n) = y := by
  have h : (formatXYN c x y n).extractLsb' 4 4 = BitVec.ofFin (w := 4) y := by
    have h1 : (formatXYN c x y n).extractLsb' 4 12 = c ++ BitVec.ofFin (w := 4) x ++ BitVec.ofFin (w := 4) y :=
      BitVec.extractLsb'_append_eq_left
    rw [← field_of_field (formatXYN c x y n) 4 12 0 4 (by decide), h1]; exact BitVec.extractLsb'_append_eq_right
  rw [fieldY, h]

@[simp] theorem fieldN_formatXYN (c : BitVec 4) (x y : Reg) (n : BitVec 4) : fieldN (formatXYN c x y n) = n.toFin := by
  rw [fieldN, show (formatXYN c x y n).extractLsb' 0 4 = n from BitVec.extractLsb'_append_eq_right]

/-! ## A format's word determines its fields -/

theorem formatNNN_inj {c d : BitVec 4} {m n : Addr} : formatNNN c m = formatNNN d n ↔ c = d ∧ m = n := by
  constructor
  · intro h; exact ⟨by simpa using congrArg fieldClass h, by simpa using congrArg fieldNNN h⟩
  · rintro ⟨rfl, rfl⟩; rfl

theorem formatXNN_inj {c d : BitVec 4} {x y : Reg} {m n : Byte} :
    formatXNN c x m = formatXNN d y n ↔ c = d ∧ x = y ∧ m = n := by
  constructor
  · intro h
    exact ⟨by simpa using congrArg fieldClass h, by simpa using congrArg fieldX h, by simpa using congrArg fieldNN h⟩
  · rintro ⟨rfl, rfl, rfl⟩; rfl

theorem formatXYN_inj {c d : BitVec 4} {x y x' y' : Reg} {m n : BitVec 4} :
    formatXYN c x x' m = formatXYN d y y' n ↔ c = d ∧ x = y ∧ x' = y' ∧ m = n := by
  constructor
  · intro h
    refine ⟨by simpa using congrArg fieldClass h, by simpa using congrArg fieldX h, by simpa using congrArg fieldY h, ?_⟩
    have hn := congrArg fieldN h
    rw [fieldN_formatXYN, fieldN_formatXYN] at hn
    exact BitVec.toFin_inj.mp hn
  · rintro ⟨rfl, rfl, rfl, rfl⟩; rfl

/-! ## What the masks of R54 keep of a word -/

theorem and_mask_class (w : Word) : w &&& 0xF000 = formatNNN (fieldClass w) 0 := by
  conv_lhs => rw [← formatNNN_fields w]
  exact Laws.formatNNN_and _ _

theorem and_mask_class_NN (w : Word) : w &&& 0xF0FF = formatXNN (fieldClass w) 0 (fieldNN w) := by
  conv_lhs => rw [← formatXNN_fields w]
  exact Laws.formatXNN_and_code _ _ _

theorem and_mask_class_N (w : Word) : w &&& 0xF00F = formatXYN (fieldClass w) 0 0 (BitVec.ofFin (w := 4) (fieldN w)) := by
  conv_lhs => rw [← formatXYN_fields w]
  exact Laws.formatXYN_and_code _ _ _ _

/-- R53: a row with mask 0xFFFF selects one word. -/
theorem selects_word (m : Mnemonic) (v w : Word) : (OpcodeRow.mk m v 0xFFFF).selects w = decide (w = v) := by
  rw [OpcodeRow.selects, show w &&& 0xFFFF = w from BitVec.and_allOnes (x := w), beq_eq_decide]

/-- R53: a row with mask 0xF000 selects by the class alone. -/
theorem selects_class (m : Mnemonic) (c : BitVec 4) (w : Word) :
    (OpcodeRow.mk m (formatNNN c 0) 0xF000).selects w = decide (fieldClass w = c) := by
  rw [OpcodeRow.selects]
  simp only [and_mask_class, beq_eq_decide, formatNNN_inj, and_true]

/-- R53: a row with mask 0xF0FF selects by the class and the lowest byte. -/
theorem selects_class_NN (m : Mnemonic) (c : BitVec 4) (nn : Byte) (w : Word) :
    (OpcodeRow.mk m (formatXNN c 0 nn) 0xF0FF).selects w = decide (fieldClass w = c ∧ fieldNN w = nn) := by
  rw [OpcodeRow.selects]
  simp only [and_mask_class_NN, beq_eq_decide, formatXNN_inj, true_and]

/-- R53: a row with mask 0xF00F selects by the class and the lowest nibble. -/
theorem selects_class_N (m : Mnemonic) (c : BitVec 4) (n : RowCount) (w : Word) :
    (OpcodeRow.mk m (formatXYN c 0 0 (BitVec.ofFin (w := 4) n)) 0xF00F).selects w =
      decide (fieldClass w = c ∧ fieldN w = n) := by
  rw [OpcodeRow.selects]
  simp only [and_mask_class_N, beq_eq_decide, formatXYN_inj, true_and, BitVec.ofFin.injEq]

/-- The opcode map with each row's fixed bits written in its format. -/
theorem opcodeTable_by_format : opcodeTable =
    [ ⟨.RET, 0x00EE, 0xFFFF⟩, ⟨.JP, formatNNN 0x1 0, 0xF000⟩, ⟨.CALL, formatNNN 0x2 0, 0xF000⟩,
      ⟨.SE, formatNNN 0x3 0, 0xF000⟩, ⟨.LDI, formatNNN 0x6 0, 0xF000⟩, ⟨.ADDI, formatNNN 0x7 0, 0xF000⟩,
      ⟨.CPY, formatXYN 0x8 0 0 (BitVec.ofFin (w := 4) 0), 0xF00F⟩, ⟨.OR, formatXYN 0x8 0 0 (BitVec.ofFin (w := 4) 1), 0xF00F⟩,
      ⟨.AND, formatXYN 0x8 0 0 (BitVec.ofFin (w := 4) 2), 0xF00F⟩, ⟨.XOR, formatXYN 0x8 0 0 (BitVec.ofFin (w := 4) 3), 0xF00F⟩,
      ⟨.LDIDX, formatNNN 0xA 0, 0xF000⟩, ⟨.DRW, formatNNN 0xD 0, 0xF000⟩, ⟨.RDDT, formatXNN 0xF 0 0x07, 0xF0FF⟩,
      ⟨.WRDT, formatXNN 0xF 0 0x15, 0xF0FF⟩, ⟨.ADDIDX, formatXNN 0xF 0 0x1E, 0xF0FF⟩ ] := by decide

/-- R53: the decoder as a dispatch on the class, and in classes 8 and F on the lowest nibble or byte. -/
theorem decode_by_class (w : Word) : decode w =
    if w = 0x00EE then .ok .ret
    else if fieldClass w = 0x1 then .ok (.jp (fieldNNN w))
    else if fieldClass w = 0x2 then .ok (.call (fieldNNN w))
    else if fieldClass w = 0x3 then .ok (.se (fieldX w) (fieldNN w))
    else if fieldClass w = 0x6 then .ok (.ldi (fieldX w) (fieldNN w))
    else if fieldClass w = 0x7 then .ok (.addi (fieldX w) (fieldNN w))
    else if fieldClass w = 0x8 ∧ fieldN w = 0 then .ok (.cpy (fieldX w) (fieldY w))
    else if fieldClass w = 0x8 ∧ fieldN w = 1 then .ok (.or (fieldX w) (fieldY w))
    else if fieldClass w = 0x8 ∧ fieldN w = 2 then .ok (.and (fieldX w) (fieldY w))
    else if fieldClass w = 0x8 ∧ fieldN w = 3 then .ok (.xor (fieldX w) (fieldY w))
    else if fieldClass w = 0xA then .ok (.ldidx (fieldNNN w))
    else if fieldClass w = 0xD then .ok (.drw (fieldX w) (fieldY w) (fieldN w))
    else if fieldClass w = 0xF ∧ fieldNN w = 0x07 then .ok (.rddt (fieldX w))
    else if fieldClass w = 0xF ∧ fieldNN w = 0x15 then .ok (.wrdt (fieldX w))
    else if fieldClass w = 0xF ∧ fieldNN w = 0x1E then .ok (.addidx (fieldX w))
    else .error (.unrecognized w) := by
  rw [decode, opcodeTable_by_format]
  simp only [decodeRows, selects_word, selects_class, selects_class_NN, selects_class_N, decide_eq_true_eq]
  rfl

end Sys2Proof
end

