-- ==== Sys2Proof/Laws/State.lean ====
section
/-! SUPPORT. Laws/State.lean: every field after every update of Machine/Ops.lean, one lemma each. -/

namespace Sys2Proof.Machine

variable (s : State)

/-! ## writeReg -/

@[simp] theorem State.writeReg_x (r : Reg) (v : Byte) : (s.writeReg r v).x = s.x.set r.val v := rfl
@[simp] theorem State.writeReg_I (r : Reg) (v : Byte) : (s.writeReg r v).I = s.I := rfl
@[simp] theorem State.writeReg_pc (r : Reg) (v : Byte) : (s.writeReg r v).pc = s.pc := rfl
@[simp] theorem State.writeReg_stack (r : Reg) (v : Byte) : (s.writeReg r v).stack = s.stack := rfl
@[simp] theorem State.writeReg_sp (r : Reg) (v : Byte) : (s.writeReg r v).sp = s.sp := rfl
@[simp] theorem State.writeReg_DT (r : Reg) (v : Byte) : (s.writeReg r v).DT = s.DT := rfl
@[simp] theorem State.writeReg_fb (r : Reg) (v : Byte) : (s.writeReg r v).fb = s.fb := rfl
@[simp] theorem State.writeReg_dirty (r : Reg) (v : Byte) : (s.writeReg r v).dirty = s.dirty := rfl
@[simp] theorem State.writeReg_halted (r : Reg) (v : Byte) : (s.writeReg r v).halted = s.halted := rfl
@[simp] theorem State.writeReg_cause (r : Reg) (v : Byte) : (s.writeReg r v).cause = s.cause := rfl
@[simp] theorem State.writeReg_info (r : Reg) (v : Byte) : (s.writeReg r v).info = s.info := rfl
@[simp] theorem State.writeReg_unimplSeen (r : Reg) (v : Byte) : (s.writeReg r v).unimplSeen = s.unimplSeen := rfl
@[simp] theorem State.writeReg_drawOobSeen (r : Reg) (v : Byte) : (s.writeReg r v).drawOobSeen = s.drawOobSeen := rfl
@[simp] theorem State.writeReg_mem (r : Reg) (v : Byte) : (s.writeReg r v).mem = s.mem := rfl
@[simp] theorem State.writeReg_params (r : Reg) (v : Byte) : (s.writeReg r v).params = s.params := rfl
@[simp] theorem State.writeReg_reports (r : Reg) (v : Byte) : (s.writeReg r v).reports = s.reports := rfl

/-! ## writeIndex -/

@[simp] theorem State.writeIndex_x (v : Word) : (s.writeIndex v).x = s.x := rfl
@[simp] theorem State.writeIndex_I (v : Word) : (s.writeIndex v).I = v := rfl
@[simp] theorem State.writeIndex_pc (v : Word) : (s.writeIndex v).pc = s.pc := rfl
@[simp] theorem State.writeIndex_stack (v : Word) : (s.writeIndex v).stack = s.stack := rfl
@[simp] theorem State.writeIndex_sp (v : Word) : (s.writeIndex v).sp = s.sp := rfl
@[simp] theorem State.writeIndex_DT (v : Word) : (s.writeIndex v).DT = s.DT := rfl
@[simp] theorem State.writeIndex_fb (v : Word) : (s.writeIndex v).fb = s.fb := rfl
@[simp] theorem State.writeIndex_dirty (v : Word) : (s.writeIndex v).dirty = s.dirty := rfl
@[simp] theorem State.writeIndex_halted (v : Word) : (s.writeIndex v).halted = s.halted := rfl
@[simp] theorem State.writeIndex_cause (v : Word) : (s.writeIndex v).cause = s.cause := rfl
@[simp] theorem State.writeIndex_info (v : Word) : (s.writeIndex v).info = s.info := rfl
@[simp] theorem State.writeIndex_unimplSeen (v : Word) : (s.writeIndex v).unimplSeen = s.unimplSeen := rfl
@[simp] theorem State.writeIndex_drawOobSeen (v : Word) : (s.writeIndex v).drawOobSeen = s.drawOobSeen := rfl
@[simp] theorem State.writeIndex_mem (v : Word) : (s.writeIndex v).mem = s.mem := rfl
@[simp] theorem State.writeIndex_params (v : Word) : (s.writeIndex v).params = s.params := rfl
@[simp] theorem State.writeIndex_reports (v : Word) : (s.writeIndex v).reports = s.reports := rfl
@[simp] theorem State.writeIndex_readReg (v : Word) (k : Reg) : (s.writeIndex v).readReg k = s.readReg k := rfl

/-! ## writeTimer -/

@[simp] theorem State.writeTimer_x (v : Byte) : (s.writeTimer v).x = s.x := rfl
@[simp] theorem State.writeTimer_I (v : Byte) : (s.writeTimer v).I = s.I := rfl
@[simp] theorem State.writeTimer_pc (v : Byte) : (s.writeTimer v).pc = s.pc := rfl
@[simp] theorem State.writeTimer_stack (v : Byte) : (s.writeTimer v).stack = s.stack := rfl
@[simp] theorem State.writeTimer_sp (v : Byte) : (s.writeTimer v).sp = s.sp := rfl
@[simp] theorem State.writeTimer_DT (v : Byte) : (s.writeTimer v).DT = v := rfl
@[simp] theorem State.writeTimer_fb (v : Byte) : (s.writeTimer v).fb = s.fb := rfl
@[simp] theorem State.writeTimer_dirty (v : Byte) : (s.writeTimer v).dirty = s.dirty := rfl
@[simp] theorem State.writeTimer_halted (v : Byte) : (s.writeTimer v).halted = s.halted := rfl
@[simp] theorem State.writeTimer_cause (v : Byte) : (s.writeTimer v).cause = s.cause := rfl
@[simp] theorem State.writeTimer_info (v : Byte) : (s.writeTimer v).info = s.info := rfl
@[simp] theorem State.writeTimer_unimplSeen (v : Byte) : (s.writeTimer v).unimplSeen = s.unimplSeen := rfl
@[simp] theorem State.writeTimer_drawOobSeen (v : Byte) : (s.writeTimer v).drawOobSeen = s.drawOobSeen := rfl
@[simp] theorem State.writeTimer_mem (v : Byte) : (s.writeTimer v).mem = s.mem := rfl
@[simp] theorem State.writeTimer_params (v : Byte) : (s.writeTimer v).params = s.params := rfl
@[simp] theorem State.writeTimer_reports (v : Byte) : (s.writeTimer v).reports = s.reports := rfl
@[simp] theorem State.writeTimer_readReg (v : Byte) (k : Reg) : (s.writeTimer v).readReg k = s.readReg k := rfl

/-! ## jump -/

@[simp] theorem State.jump_x (v : Word) : (s.jump v).x = s.x := rfl
@[simp] theorem State.jump_I (v : Word) : (s.jump v).I = s.I := rfl
@[simp] theorem State.jump_pc (v : Word) : (s.jump v).pc = v := rfl
@[simp] theorem State.jump_stack (v : Word) : (s.jump v).stack = s.stack := rfl
@[simp] theorem State.jump_sp (v : Word) : (s.jump v).sp = s.sp := rfl
@[simp] theorem State.jump_DT (v : Word) : (s.jump v).DT = s.DT := rfl
@[simp] theorem State.jump_fb (v : Word) : (s.jump v).fb = s.fb := rfl
@[simp] theorem State.jump_dirty (v : Word) : (s.jump v).dirty = s.dirty := rfl
@[simp] theorem State.jump_halted (v : Word) : (s.jump v).halted = s.halted := rfl
@[simp] theorem State.jump_cause (v : Word) : (s.jump v).cause = s.cause := rfl
@[simp] theorem State.jump_info (v : Word) : (s.jump v).info = s.info := rfl
@[simp] theorem State.jump_unimplSeen (v : Word) : (s.jump v).unimplSeen = s.unimplSeen := rfl
@[simp] theorem State.jump_drawOobSeen (v : Word) : (s.jump v).drawOobSeen = s.drawOobSeen := rfl
@[simp] theorem State.jump_mem (v : Word) : (s.jump v).mem = s.mem := rfl
@[simp] theorem State.jump_params (v : Word) : (s.jump v).params = s.params := rfl
@[simp] theorem State.jump_reports (v : Word) : (s.jump v).reports = s.reports := rfl
@[simp] theorem State.jump_readReg (v : Word) (k : Reg) : (s.jump v).readReg k = s.readReg k := rfl

/-! ## advance -/

@[simp] theorem State.advance_x : s.advance.x = s.x := rfl
@[simp] theorem State.advance_I : s.advance.I = s.I := rfl
@[simp] theorem State.advance_pc : s.advance.pc = s.pc + 2 := rfl
@[simp] theorem State.advance_stack : s.advance.stack = s.stack := rfl
@[simp] theorem State.advance_sp : s.advance.sp = s.sp := rfl
@[simp] theorem State.advance_DT : s.advance.DT = s.DT := rfl
@[simp] theorem State.advance_fb : s.advance.fb = s.fb := rfl
@[simp] theorem State.advance_dirty : s.advance.dirty = s.dirty := rfl
@[simp] theorem State.advance_halted : s.advance.halted = s.halted := rfl
@[simp] theorem State.advance_cause : s.advance.cause = s.cause := rfl
@[simp] theorem State.advance_info : s.advance.info = s.info := rfl
@[simp] theorem State.advance_unimplSeen : s.advance.unimplSeen = s.unimplSeen := rfl
@[simp] theorem State.advance_drawOobSeen : s.advance.drawOobSeen = s.drawOobSeen := rfl
@[simp] theorem State.advance_mem : s.advance.mem = s.mem := rfl
@[simp] theorem State.advance_params : s.advance.params = s.params := rfl
@[simp] theorem State.advance_reports : s.advance.reports = s.reports := rfl
@[simp] theorem State.advance_readReg (k : Reg) : s.advance.readReg k = s.readReg k := rfl

/-! ## advanceSkip -/

@[simp] theorem State.advanceSkip_x : s.advanceSkip.x = s.x := rfl
@[simp] theorem State.advanceSkip_I : s.advanceSkip.I = s.I := rfl
@[simp] theorem State.advanceSkip_pc : s.advanceSkip.pc = s.pc + 4 := rfl
@[simp] theorem State.advanceSkip_stack : s.advanceSkip.stack = s.stack := rfl
@[simp] theorem State.advanceSkip_sp : s.advanceSkip.sp = s.sp := rfl
@[simp] theorem State.advanceSkip_DT : s.advanceSkip.DT = s.DT := rfl
@[simp] theorem State.advanceSkip_fb : s.advanceSkip.fb = s.fb := rfl
@[simp] theorem State.advanceSkip_dirty : s.advanceSkip.dirty = s.dirty := rfl
@[simp] theorem State.advanceSkip_halted : s.advanceSkip.halted = s.halted := rfl
@[simp] theorem State.advanceSkip_cause : s.advanceSkip.cause = s.cause := rfl
@[simp] theorem State.advanceSkip_info : s.advanceSkip.info = s.info := rfl
@[simp] theorem State.advanceSkip_unimplSeen : s.advanceSkip.unimplSeen = s.unimplSeen := rfl
@[simp] theorem State.advanceSkip_drawOobSeen : s.advanceSkip.drawOobSeen = s.drawOobSeen := rfl
@[simp] theorem State.advanceSkip_mem : s.advanceSkip.mem = s.mem := rfl
@[simp] theorem State.advanceSkip_params : s.advanceSkip.params = s.params := rfl
@[simp] theorem State.advanceSkip_reports : s.advanceSkip.reports = s.reports := rfl
@[simp] theorem State.advanceSkip_readReg (k : Reg) : s.advanceSkip.readReg k = s.readReg k := rfl

/-! ## raise -/

@[simp] theorem State.raise_x (f : Fault) : (s.raise f).x = s.x := rfl
@[simp] theorem State.raise_I (f : Fault) : (s.raise f).I = s.I := rfl
@[simp] theorem State.raise_pc (f : Fault) : (s.raise f).pc = s.pc := rfl
@[simp] theorem State.raise_stack (f : Fault) : (s.raise f).stack = s.stack := rfl
@[simp] theorem State.raise_sp (f : Fault) : (s.raise f).sp = s.sp := rfl
@[simp] theorem State.raise_DT (f : Fault) : (s.raise f).DT = s.DT := rfl
@[simp] theorem State.raise_fb (f : Fault) : (s.raise f).fb = s.fb := rfl
@[simp] theorem State.raise_dirty (f : Fault) : (s.raise f).dirty = s.dirty := rfl
@[simp] theorem State.raise_halted (f : Fault) : (s.raise f).halted = true := rfl
@[simp] theorem State.raise_cause (f : Fault) : (s.raise f).cause = f.code := rfl
@[simp] theorem State.raise_info (f : Fault) : (s.raise f).info = f.info := rfl
@[simp] theorem State.raise_unimplSeen (f : Fault) : (s.raise f).unimplSeen = s.unimplSeen := rfl
@[simp] theorem State.raise_drawOobSeen (f : Fault) : (s.raise f).drawOobSeen = s.drawOobSeen := rfl
@[simp] theorem State.raise_mem (f : Fault) : (s.raise f).mem = s.mem := rfl
@[simp] theorem State.raise_params (f : Fault) : (s.raise f).params = s.params := rfl
@[simp] theorem State.raise_reports (f : Fault) : (s.raise f).reports = s.reports := rfl
@[simp] theorem State.raise_readReg (f : Fault) (k : Reg) : (s.raise f).readReg k = s.readReg k := rfl

/-! ## report -/

@[simp] theorem State.report_x (r : Report) : (s.report r).x = s.x := rfl
@[simp] theorem State.report_I (r : Report) : (s.report r).I = s.I := rfl
@[simp] theorem State.report_pc (r : Report) : (s.report r).pc = s.pc := rfl
@[simp] theorem State.report_stack (r : Report) : (s.report r).stack = s.stack := rfl
@[simp] theorem State.report_sp (r : Report) : (s.report r).sp = s.sp := rfl
@[simp] theorem State.report_DT (r : Report) : (s.report r).DT = s.DT := rfl
@[simp] theorem State.report_fb (r : Report) : (s.report r).fb = s.fb := rfl
@[simp] theorem State.report_dirty (r : Report) : (s.report r).dirty = s.dirty := rfl
@[simp] theorem State.report_halted (r : Report) : (s.report r).halted = s.halted := rfl
@[simp] theorem State.report_cause (r : Report) : (s.report r).cause = s.cause := rfl
@[simp] theorem State.report_info (r : Report) : (s.report r).info = s.info := rfl
@[simp] theorem State.report_unimplSeen (r : Report) : (s.report r).unimplSeen = true := rfl
@[simp] theorem State.report_drawOobSeen (r : Report) : (s.report r).drawOobSeen = s.drawOobSeen := rfl
@[simp] theorem State.report_mem (r : Report) : (s.report r).mem = s.mem := rfl
@[simp] theorem State.report_params (r : Report) : (s.report r).params = s.params := rfl
@[simp] theorem State.report_reports (r : Report) : (s.report r).reports = s.reports ++ [r] := rfl
@[simp] theorem State.report_readReg (r : Report) (k : Reg) : (s.report r).readReg k = s.readReg k := rfl

/-! ## commitDraw -/

@[simp] theorem State.commitDraw_x (fb : Framebuffer) (oob : Bool) : (s.commitDraw fb oob).x = s.x := rfl
@[simp] theorem State.commitDraw_I (fb : Framebuffer) (oob : Bool) : (s.commitDraw fb oob).I = s.I := rfl
@[simp] theorem State.commitDraw_pc (fb : Framebuffer) (oob : Bool) : (s.commitDraw fb oob).pc = s.pc := rfl
@[simp] theorem State.commitDraw_stack (fb : Framebuffer) (oob : Bool) : (s.commitDraw fb oob).stack = s.stack := rfl
@[simp] theorem State.commitDraw_sp (fb : Framebuffer) (oob : Bool) : (s.commitDraw fb oob).sp = s.sp := rfl
@[simp] theorem State.commitDraw_DT (fb : Framebuffer) (oob : Bool) : (s.commitDraw fb oob).DT = s.DT := rfl
@[simp] theorem State.commitDraw_fb (fb : Framebuffer) (oob : Bool) : (s.commitDraw fb oob).fb = fb := rfl
@[simp] theorem State.commitDraw_dirty (fb : Framebuffer) (oob : Bool) : (s.commitDraw fb oob).dirty = true := rfl
@[simp] theorem State.commitDraw_halted (fb : Framebuffer) (oob : Bool) : (s.commitDraw fb oob).halted = s.halted := rfl
@[simp] theorem State.commitDraw_cause (fb : Framebuffer) (oob : Bool) : (s.commitDraw fb oob).cause = s.cause := rfl
@[simp] theorem State.commitDraw_info (fb : Framebuffer) (oob : Bool) : (s.commitDraw fb oob).info = s.info := rfl
@[simp] theorem State.commitDraw_unimplSeen (fb : Framebuffer) (oob : Bool) : (s.commitDraw fb oob).unimplSeen = s.unimplSeen := rfl
@[simp] theorem State.commitDraw_drawOobSeen (fb : Framebuffer) (oob : Bool) : (s.commitDraw fb oob).drawOobSeen = (s.drawOobSeen || oob) := rfl
@[simp] theorem State.commitDraw_mem (fb : Framebuffer) (oob : Bool) : (s.commitDraw fb oob).mem = s.mem := rfl
@[simp] theorem State.commitDraw_params (fb : Framebuffer) (oob : Bool) : (s.commitDraw fb oob).params = s.params := rfl
@[simp] theorem State.commitDraw_reports (fb : Framebuffer) (oob : Bool) : (s.commitDraw fb oob).reports = s.reports := rfl
@[simp] theorem State.commitDraw_readReg (fb : Framebuffer) (oob : Bool) (k : Reg) : (s.commitDraw fb oob).readReg k = s.readReg k := rfl

/-! ## Register reads after a register write (R10) -/

theorem State.readReg_writeReg (r k : Reg) (v : Byte) :
    (s.writeReg r v).readReg k = if k = r then v else s.readReg k := by
  simp only [State.readReg, State.writeReg, Vector.getElem_set, Fin.ext_iff]
  split <;> split <;> first | rfl | omega

@[simp] theorem State.readReg_writeReg_same (r : Reg) (v : Byte) : (s.writeReg r v).readReg r = v := by
  simp [State.readReg_writeReg]

theorem State.readReg_writeReg_ne (r k : Reg) (v : Byte) (h : k ≠ r) : (s.writeReg r v).readReg k = s.readReg k := by
  simp [State.readReg_writeReg, h]

end Sys2Proof.Machine
end

