-- ==== Sys2Proof/Laws/Memory.lean ====
section
/-! SUPPORT. Laws/Memory.lean: every memory operation keeps the canonical form, and what a read gives after a write. -/

namespace Sys2Proof.Machine

/-! ## The canonical form -/

theorem Memory.wfFrom_cons (lo a : Nat) (v : Byte) (m : List Host.Cell) :
    Memory.wfFrom lo ((a, v) :: m) = true ↔
      lo ≤ a ∧ a < memSize ∧ v ≠ Memory.unlisted ∧ Memory.wfFrom (a + 1) m = true := by
  simp [Memory.wfFrom, and_assoc]

theorem Memory.wfFrom_mono {lo lo' : Nat} (h : lo' ≤ lo) {m : List Host.Cell} (hm : Memory.wfFrom lo m = true) :
    Memory.wfFrom lo' m = true := by
  cases m with
  | nil => rfl
  | cons c rest =>
    obtain ⟨a, v⟩ := c
    rw [Memory.wfFrom_cons] at hm ⊢
    exact ⟨by omega, hm.2⟩

/-- An address below every listed one is unlisted. -/
theorem Memory.lookup_below {lo a : Nat} {m : List Host.Cell} (hm : Memory.wfFrom lo m = true) (h : a < lo) :
    Memory.lookup a m = Memory.unlisted := by
  induction m generalizing lo with
  | nil => rfl
  | cons c rest ih =>
    obtain ⟨b, v⟩ := c
    obtain ⟨hlo, -, -, hrest⟩ := (Memory.wfFrom_cons _ _ _ _).mp hm
    rw [Memory.lookup, if_neg (by omega)]
    exact ih hrest (by omega)

theorem Memory.put_wfFrom {lo a : Nat} {v : Byte} {m : List Host.Cell} (hm : Memory.wfFrom lo m = true) (hlo : lo ≤ a)
    (ha : a < memSize) : Memory.wfFrom lo (Memory.put a v m) = true := by
  induction m generalizing lo with
  | nil =>
    rw [Memory.put]
    split
    · rfl
    · rw [Memory.wfFrom_cons]; exact ⟨hlo, ha, ‹_›, rfl⟩
  | cons c rest ih =>
    obtain ⟨b, w⟩ := c
    obtain ⟨h1, h2, h3, h4⟩ := (Memory.wfFrom_cons _ _ _ _).mp hm
    rw [Memory.put]
    split
    · exact (Memory.wfFrom_cons _ _ _ _).mpr ⟨h1, h2, h3, ih h4 (by omega)⟩
    · split
      · subst b
        split
        · exact Memory.wfFrom_mono (by omega) h4
        · exact (Memory.wfFrom_cons _ _ _ _).mpr ⟨h1, h2, ‹_›, h4⟩
      · split
        · exact hm
        · exact (Memory.wfFrom_cons _ _ _ _).mpr
            ⟨hlo, ha, ‹_›, (Memory.wfFrom_cons _ _ _ _).mpr ⟨by omega, h2, h3, h4⟩⟩

/-- A write keeps the canonical form. -/
theorem Memory.write_wf {m : Memory} (hm : m.wf = true) (a : Nat) (v : Byte) : (m.write a v).wf = true := by
  unfold Memory.write
  split
  · exact Memory.put_wfFrom hm (Nat.zero_le a) ‹_›
  · exact hm

/-- Writing a sequence of bytes keeps the canonical form. -/
theorem Memory.writeBytes_wf {m : Memory} (hm : m.wf = true) (a : Nat) (vs : List Byte) : (m.writeBytes a vs).wf = true := by
  induction vs generalizing m a with
  | nil => exact hm
  | cons v rest ih => exact ih (Memory.write_wf hm a v) (a + 1)

/-- Memory after reset has the canonical form. -/
theorem Memory.reset_wf (p : Params) : (State.resetWith p).mem.wf = true := rfl

/-! ## Reads after writes -/

theorem Memory.lookup_put {lo : Nat} {m : List Host.Cell} (hm : Memory.wfFrom lo m = true) (a b : Nat) (v : Byte) :
    Memory.lookup b (Memory.put a v m) = if b = a then v else Memory.lookup b m := by
  induction m generalizing lo with
  | nil =>
    by_cases hv : v = Memory.unlisted <;> by_cases hb : b = a <;> simp [Memory.put, Memory.lookup, hv, hb]
    exact fun h => absurd h.symm hb
  | cons c rest ih =>
    obtain ⟨k, w⟩ := c
    obtain ⟨-, -, -, h4⟩ := (Memory.wfFrom_cons _ _ _ _).mp hm
    rw [Memory.put]
    split
    · simp only [Memory.lookup, ih h4]
      split
      · rw [if_neg (by omega)]
      · rfl
    · split
      · subst k
        split
        · by_cases hb : b = a
          · subst hb; simp [‹v = _›, Memory.lookup_below h4]
          · simp [Memory.lookup, hb, Ne.symm hb]
        · by_cases hb : b = a <;> simp [Memory.lookup, hb, Ne.symm]
      · split
        · by_cases hb : b = a
          · subst hb
            rw [if_pos rfl, Memory.lookup, if_neg (by omega), Memory.lookup_below h4 (by omega), ‹v = _›]
          · rw [if_neg hb]
        · by_cases hb : b = a
          · simp [Memory.lookup, hb]
          · rw [if_neg hb, Memory.lookup, if_neg (Ne.symm hb)]

/-- What any number reads as after a write of one byte. -/
theorem Memory.read?_write {m : Memory} (hm : m.wf = true) (a b : Nat) (v : Byte) :
    (m.write a v).read? b = if b = a ∧ a < memSize then some v else m.read? b := by
  unfold Memory.write Memory.read?
  by_cases ha : a < memSize
  · by_cases hb : b = a
    · subst hb; simp [ha, Memory.lookup_put hm]
    · simp [ha, hb, Memory.lookup_put hm]
  · simp [ha]

/-- Outside a written sequence every number reads as before. -/
theorem Memory.read?_writeBytes_outside {m : Memory} (hm : m.wf = true) (a b : Nat) (vs : List Byte)
    (h : b < a ∨ a + vs.length ≤ b) : (m.writeBytes a vs).read? b = m.read? b := by
  induction vs generalizing m a with
  | nil => rfl
  | cons v rest ih =>
    have hlen : (v :: rest).length = rest.length + 1 := rfl
    rw [Memory.writeBytes, ih (Memory.write_wf hm a v) (a + 1) (by omega), Memory.read?_write hm, if_neg (by omega)]

/-- Inside a written sequence that lies in the address space, each address reads as its byte. -/
theorem Memory.read?_writeBytes_inside {m : Memory} (hm : m.wf = true) (a k : Nat) (vs : List Byte) (hk : k < vs.length)
    (hin : a + k < memSize) : (m.writeBytes a vs).read? (a + k) = some vs[k] := by
  induction vs generalizing m a k with
  | nil => exact absurd hk (Nat.not_lt_zero k)
  | cons v rest ih =>
    rw [Memory.writeBytes]
    cases k with
    | zero =>
      rw [Memory.read?_writeBytes_outside (Memory.write_wf hm a v) _ _ _ (by omega), Memory.read?_write hm]
      simp [show a < memSize from hin]
    | succ k =>
      have := ih (Memory.write_wf hm a v) (a + 1) k (by simpa using hk) (by omega)
      rw [show a + (k + 1) = a + 1 + k by omega, this]; rfl

/-! ## Reading rows (R36) -/

/-- R36: rows that all lie in the address space are read, row `r` from `base + r`. -/
theorem Memory.readRows_ok {m : Memory} {base n : Nat} (h : n = 0 ∨ base + n ≤ memSize) :
    m.readRows base n = .ok ((List.range n).map fun r => Memory.lookup (base + r) m) := by
  induction n generalizing base with
  | zero => rfl
  | succ n ih =>
    have hb : base < memSize := by omega
    rw [Memory.readRows, Memory.read?, if_pos hb, ih (by omega), List.range_succ_eq_map]
    simp [Function.comp_def, Nat.add_assoc, Nat.add_comm 1]

/-- R36, R96: otherwise the first address out of range is reported, `max(base, 4096)`. -/
theorem Memory.readRows_error {m : Memory} {base n : Nat} (h0 : 0 < n) (h : memSize < base + n) :
    m.readRows base n = .error (max base memSize) := by
  induction n generalizing base with
  | zero => exact absurd h0 (Nat.lt_irrefl 0)
  | succ n ih =>
    rw [Memory.readRows, Memory.read?]
    by_cases hb : base < memSize
    · rw [if_pos hb, ih (by omega) (by omega)]
      simp only [Except.error.injEq]
      omega
    · rw [if_neg hb]
      simp only [Except.error.injEq]
      omega

/-- The two cases above are all there are. -/
theorem Memory.readRows_cases (m : Memory) (base n : Nat) :
    ((n = 0 ∨ base + n ≤ memSize) ∧
      m.readRows base n = .ok ((List.range n).map fun r => Memory.lookup (base + r) m)) ∨
    (0 < n ∧ memSize < base + n ∧ m.readRows base n = .error (max base memSize)) := by
  by_cases h : n = 0 ∨ base + n ≤ memSize
  · exact .inl ⟨h, Memory.readRows_ok h⟩
  · exact .inr ⟨by omega, by omega, Memory.readRows_error (by omega) (by omega)⟩

end Sys2Proof.Machine
end

