-- ==== Sys2Proof/Laws/Ops.lean ====
section
/-! SUPPORT. Laws/Ops.lean: one lemma per shared operation that says everything it can do. -/

namespace Sys2Proof.Machine

variable {s t : State}

/-! ## Fetch (R33, R35) -/

/-- R35: the fetch succeeds exactly when both bytes are in the address space, and composes them big-endian. -/
theorem fetchWord_eq_some (s : State) (h : s.pc.toNat + 1 < memSize) :
    fetchWord s = some (wordOfBytes (Memory.lookup s.pc.toNat s.mem) (Memory.lookup (s.pc.toNat + 1) s.mem)) := by
  rw [fetchWord, Memory.read?, Memory.read?, if_pos (Nat.lt_of_succ_lt h), if_pos h]

/-- R35: the fetch fails when `pc + 1 >= MEM_SIZE`. -/
theorem fetchWord_eq_none (s : State) (h : memSize ≤ s.pc.toNat + 1) : fetchWord s = none := by
  rw [fetchWord, Memory.read?, Memory.read?, if_neg (Nat.not_lt.mpr h)]
  split <;> first | rfl | simp_all

theorem fetchWord_isSome_iff (s : State) : (fetchWord s).isSome = true ↔ s.pc.toNat + 1 < memSize := by
  by_cases h : s.pc.toNat + 1 < memSize
  · simp [fetchWord_eq_some s h, h]
  · simp [fetchWord_eq_none s (Nat.not_lt.mp h), h]

/-! ## The call stack (R16, R17) -/

/-- A push into a full stack does not happen. -/
theorem State.push?_full (s : State) (v : Word) (h : s.sp.val = stackDepth) : s.push? v = none := by
  rw [State.push?, dif_neg (by omega)]

/-- A push below the top writes the entry at the old `sp` and increments `sp`. -/
theorem State.push?_room (s : State) (v : Word) (h : s.sp.val < stackDepth) :
    s.push? v = some { s with stack := s.stack.set s.sp.val v, sp := ⟨s.sp.val + 1, Nat.succ_lt_succ h⟩ } := by
  rw [State.push?, dif_pos h]

/-- Everything a push can do. -/
theorem State.push?_eq_some {v : Word} (h : s.push? v = some t) :
    ∃ room : s.sp.val < stackDepth,
      t = { s with stack := s.stack.set s.sp.val v, sp := ⟨s.sp.val + 1, Nat.succ_lt_succ room⟩ } := by
  unfold State.push? at h
  split at h
  · exact ⟨‹_›, (Option.some.inj h).symm⟩
  · cases h

/-- A pop of an empty stack does not happen. -/
theorem State.pop?_empty (s : State) (h : s.sp.val = 0) : s.pop? = none := by
  rw [State.pop?, dif_neg (by omega)]

/-- A pop gives the entry under `sp` and decrements `sp`; nothing else changes. -/
theorem State.pop?_used (s : State) (k : Fin stackDepth) (h : s.sp.val = k.val + 1) :
    s.pop? = some (s.stack[k.val], { s with sp := ⟨k.val, Nat.lt_succ_of_lt k.isLt⟩ }) := by
  have hk : s.sp.val - 1 = k.val := by omega
  rw [State.pop?, dif_pos (by omega)]
  simp only [hk]

/-- Everything a pop can do. -/
theorem State.pop?_eq_some {v : Word} (h : s.pop? = some (v, t)) :
    ∃ k : Fin stackDepth, s.sp.val = k.val + 1 ∧ v = s.stack[k.val] ∧
      t = { s with sp := ⟨k.val, Nat.lt_succ_of_lt k.isLt⟩ } := by
  have pos : 0 < s.sp.val := by
    by_contra hn
    rw [State.pop?_empty s (by omega)] at h
    cases h
  have hk : s.sp.val - 1 < stackDepth := by have := s.sp.isLt; omega
  rw [State.pop?_used s ⟨s.sp.val - 1, hk⟩ (by simp only; omega)] at h
  obtain ⟨rfl, rfl⟩ := Prod.mk.inj (Option.some.inj h)
  exact ⟨⟨s.sp.val - 1, hk⟩, by simp only; omega, rfl, rfl⟩

/-! ## The framebuffer (R19, R97) -/

/-- Toggling a cell complements it and leaves every other cell. -/
theorem Framebuffer.cell_toggle (fb : Framebuffer) (c d : Coord) :
    (fb.toggle c).cell d = if d = c then !fb.cell d else fb.cell d := by
  obtain ⟨⟨cc, hcc⟩, ⟨cr, hcr⟩⟩ := c
  obtain ⟨⟨dc, hdc⟩, ⟨dr, hdr⟩⟩ := d
  simp only [Framebuffer.cell, Framebuffer.toggle, Coord.mk.injEq, Fin.mk.injEq, Vector.getElem_set]
  by_cases hr : cr = dr
  · subst hr
    by_cases hc : cc = dc
    · subst hc; simp
    · simp [hc, Ne.symm hc]
  · simp [hr, Ne.symm hr]

/-- Two framebuffers with the same cells are equal. -/
theorem Framebuffer.ext_cell {a b : Framebuffer} (h : ∀ c : Coord, a.cell c = b.cell c) : a = b := by
  apply Vector.ext
  intro r hr
  apply Vector.ext
  intro c hc
  exact h ⟨⟨c, hc⟩, ⟨r, hr⟩⟩

/-- A blit of distinct cells complements exactly those cells. -/
theorem Framebuffer.cell_blit {cs : List Coord} (hd : cs.Nodup) (fb : Framebuffer) (hit : Bool) (d : Coord) :
    (Framebuffer.blit cs (fb, hit)).1.cell d = if d ∈ cs then !fb.cell d else fb.cell d := by
  induction cs generalizing fb hit with
  | nil => rfl
  | cons c rest ih =>
    obtain ⟨hc, hrest⟩ := List.nodup_cons.mp hd
    rw [Framebuffer.blit, ih hrest, Framebuffer.cell_toggle]
    by_cases hdc : d = c
    · subst hdc; simp [hc]
    · simp [hdc]

/-- A blit of distinct cells hits exactly when one of them was 1 before it. -/
theorem Framebuffer.hit_blit {cs : List Coord} (hd : cs.Nodup) (fb : Framebuffer) (hit : Bool) :
    (Framebuffer.blit cs (fb, hit)).2 = (hit || cs.any fb.cell) := by
  induction cs generalizing fb hit with
  | nil => simp [Framebuffer.blit]
  | cons c rest ih =>
    obtain ⟨hc, hrest⟩ := List.nodup_cons.mp hd
    have keep : ∀ d ∈ rest, (fb.toggle c).cell d = fb.cell d := fun d hm => by
      have hne : d ≠ c := fun h => hc (h ▸ hm)
      rw [Framebuffer.cell_toggle, if_neg hne]
    have same : rest.any (fb.toggle c).cell = rest.any fb.cell := by
      rw [Bool.eq_iff_iff]
      simp only [List.any_eq_true]
      exact ⟨fun ⟨d, hm, h⟩ => ⟨d, hm, keep d hm ▸ h⟩, fun ⟨d, hm, h⟩ => ⟨d, hm, (keep d hm).symm ▸ h⟩⟩
    rw [Framebuffer.blit, ih hrest, same, List.any_cons, Bool.or_assoc]

/-! ## Sprite pixels (R95, R97) -/

theorem mem_rowPixels {px row : Nat} {b : Byte} {p : Pixel} :
    p ∈ rowPixels px row b ↔ ∃ c, c < 8 ∧ spriteBit b c = true ∧ p = ⟨px + c, row⟩ := by
  simp only [rowPixels, List.mem_filterMap, List.mem_range]
  constructor
  · rintro ⟨c, hc, h⟩
    split at h
    · exact ⟨c, hc, ‹_›, (Option.some.inj h).symm⟩
    · cases h
  · rintro ⟨c, hc, hb, rfl⟩
    exact ⟨c, hc, by simp [hb]⟩

/-- R97: the set pixels are those of row `r`, column `c` of the sprite at `(px + c, row + r)`. -/
theorem mem_spritePixels {px row : Nat} {rows : List Byte} {p : Pixel} :
    p ∈ spritePixels px row rows ↔
      ∃ r c, ∃ hr : r < rows.length, c < 8 ∧ spriteBit rows[r] c = true ∧ p = ⟨px + c, row + r⟩ := by
  induction rows generalizing row with
  | nil => simp [spritePixels]
  | cons b rest ih =>
    rw [spritePixels, List.mem_append, mem_rowPixels, ih]
    constructor
    · rintro (⟨c, hc, hb, rfl⟩ | ⟨r, c, hr, hc, hb, rfl⟩)
      · exact ⟨0, c, Nat.succ_pos _, hc, hb, rfl⟩
      · refine ⟨r + 1, c, Nat.succ_lt_succ hr, hc, hb, ?_⟩
        rw [Nat.add_assoc, Nat.add_comm 1]
    · rintro ⟨r, c, hr, hc, hb, rfl⟩
      cases r with
      | zero => exact .inl ⟨c, hc, hb, rfl⟩
      | succ r =>
        refine .inr ⟨r, c, Nat.lt_of_succ_lt_succ hr, hc, hb, ?_⟩
        rw [Nat.add_assoc, Nat.add_comm 1]

theorem Pixel.outOfRange_iff (p : Pixel) : p.outOfRange = true ↔ fbWidth ≤ p.col ∨ fbHeight ≤ p.row := by
  simp [Pixel.outOfRange]

theorem Pixel.outOfRange_eq_false_iff (p : Pixel) : p.outOfRange = false ↔ p.col < fbWidth ∧ p.row < fbHeight := by
  simp [Pixel.outOfRange]

/-- R95 phase 3: the cells a sprite toggles, with the policy's effect said pixel by pixel. -/
theorem mem_drawTargets {policy : DrawOobPolicy} {ps : List Pixel} {c : Coord} :
    c ∈ drawTargets policy ps ↔
      ∃ p ∈ ps, p.wrapped = c ∧ (p.outOfRange = true → policy = .wrap) := by
  simp only [drawTargets, List.mem_filterMap, Pixel.target]
  constructor
  · rintro ⟨p, hp, h⟩
    refine ⟨p, hp, ?_⟩
    cases hb : p.outOfRange <;> cases policy <;> simp_all
  · rintro ⟨p, hp, rfl, h⟩
    refine ⟨p, hp, ?_⟩
    cases hb : p.outOfRange <;> simp_all

end Sys2Proof.Machine
end

