-- ==== Sys2Proof/Laws/Exec.lean ====
section
/-! SUPPORT. Laws/Exec.lean: what each meaning with more than one case can do, said once, and the cases of a step. -/

namespace Sys2Proof.Machine

/-! ## Meanings -/

/-- R70: RET underflows at `sp = 0` and otherwise pops the entry under `sp`. -/
theorem execRet_cases (s : State) :
    (s.sp.val = 0 ∧ execRet s = .next (s.raise (.stackUnderflow s.pc))) ∨
    ∃ k : Fin stackDepth, s.sp.val = k.val + 1 ∧
      execRet s = .next { s with sp := ⟨k.val, Nat.lt_succ_of_lt k.isLt⟩, pc := s.stack[k.val] } := by
  by_cases h : s.sp.val = 0
  · exact .inl ⟨h, by rw [execRet, State.pop?_empty s h]⟩
  · have hk : s.sp.val - 1 < stackDepth := by have := s.sp.isLt; omega
    refine .inr ⟨⟨s.sp.val - 1, hk⟩, by simp only; omega, ?_⟩
    rw [execRet, State.pop?_used s ⟨s.sp.val - 1, hk⟩ (by simp only; omega)]
    rfl

/-- R72: CALL overflows at `sp = 16` and otherwise pushes `pc + 2`. -/
theorem execCall_cases (nnn : Addr) (s : State) :
    (s.sp.val = stackDepth ∧ execCall nnn s = .next (s.raise (.stackOverflow s.pc))) ∨
    ∃ room : s.sp.val < stackDepth,
      execCall nnn s = .next { s with
        stack := s.stack.set s.sp.val (s.pc + 2), sp := ⟨s.sp.val + 1, Nat.succ_lt_succ room⟩, pc := addrOperand nnn } := by
  by_cases h : s.sp.val < stackDepth
  · exact .inr ⟨h, by rw [execCall, State.push?_room s _ h]; rfl⟩
  · have hf : s.sp.val = stackDepth := by have := s.sp.isLt; omega
    exact .inl ⟨hf, by rw [execCall, State.push?_full s _ hf]⟩

/-- R73: SE advances by 4 or by 2. -/
theorem execSe_cases (x : Reg) (nn : Byte) (s : State) :
    (s.readReg x = nn ∧ execSe x nn s = .next s.advanceSkip) ∨ (s.readReg x ≠ nn ∧ execSe x nn s = .next s.advance) := by
  by_cases h : s.readReg x = nn
  · exact .inl ⟨h, by rw [execSe, if_pos h]⟩
  · exact .inr ⟨h, by rw [execSe, if_neg h]⟩

/-- R110: an unrecognized word is skipped or faults, by the policy. -/
theorem execUnrecognized_cases (w : Word) (s : State) :
    (s.params.unknownOpcode = .skip ∧ execUnrecognized w s = .next (s.report ⟨w, s.pc⟩).advance) ∨
    (s.params.unknownOpcode = .fault ∧ execUnrecognized w s = .next (s.raise (.illegalInstruction s.pc w))) := by
  unfold execUnrecognized
  cases h : s.params.unknownOpcode
  · exact .inl ⟨rfl, rfl⟩
  · exact .inr ⟨rfl, rfl⟩

/-- The sprite's row bytes, for a sprite that lies in memory (R36). -/
def State.spriteBytes (s : State) (n : RowCount) : List Byte :=
  (List.range n.val).map fun r => Memory.lookup (s.I.toNat + r) s.mem

theorem State.spriteBytes_length (s : State) (n : RowCount) : (s.spriteBytes n).length = n.val := by
  simp [State.spriteBytes]

/-- R95: the three things a DRW can do: DataOutOfRange, FramebufferOutOfRange for the first pixel out of range under `fault`, or
draw, and then under `fault` no pixel is out of range. -/
theorem execDrw_cases (x y : Reg) (n : RowCount) (s : State) :
    (0 < n.val ∧ memSize < s.I.toNat + n.val ∧
      execDrw x y n s = .next (s.raise (.dataOutOfRange (BitVec.ofNat 16 (max s.I.toNat memSize)) s.pc))) ∨
    ((n.val = 0 ∨ s.I.toNat + n.val ≤ memSize) ∧
      ((∃ p, s.params.drawOob = .fault ∧ (oobPixels (s.drawPixels x y (s.spriteBytes n))).head? = some p ∧
          execDrw x y n s =
            .next (s.raise (.framebufferOutOfRange (BitVec.ofNat 16 p.col) (BitVec.ofNat 16 p.row)))) ∨
        ((s.params.drawOob = .fault → oobPixels (s.drawPixels x y (s.spriteBytes n)) = []) ∧
          execDrw x y n s = .next (s.drawSprite (s.drawPixels x y (s.spriteBytes n)))))) := by
  rcases Memory.readRows_cases s.mem s.I.toNat n.val with ⟨hr, hrows⟩ | ⟨h0, hm, herr⟩
  · refine .inr ⟨hr, ?_⟩
    have hread : s.spriteRows n = .ok (s.spriteBytes n) := hrows
    simp only [execDrw, hread, State.drawFault?]
    cases hp : s.params.drawOob with
    | fault =>
      cases hh : oobPixels (s.drawPixels x y (s.spriteBytes n)) with
      | nil => exact .inr ⟨fun _ => rfl, rfl⟩
      | cons p rest => exact .inl ⟨p, rfl, rfl, rfl⟩
    | clip => exact .inr ⟨nofun, rfl⟩
    | wrap => exact .inr ⟨nofun, rfl⟩
  · have hread : s.spriteRows n = .error (max s.I.toNat memSize) := herr
    exact .inl ⟨h0, hm, by simp only [execDrw, hread]⟩

/-- R122: every fault's code is one of 1 to 6. -/
theorem Fault.code_bounds (f : Fault) : 1 ≤ f.code.toNat ∧ f.code.toNat ≤ 6 := by
  cases f <;> exact ⟨by simp [Fault.code], by simp [Fault.code]⟩

/-- Whatever an instruction does, it raises a fault or leaves the fault status, the reports, memory and the open parameters as
they are. -/
theorem exec_raises_or_keeps_system {i : Instr} {s t : State} (h : exec i s = .next t) :
    (∃ f : Fault, t = s.raise f) ∨
    (t.halted = s.halted ∧ t.cause = s.cause ∧ t.info = s.info ∧ t.unimplSeen = s.unimplSeen ∧ t.reports = s.reports ∧
      t.mem = s.mem ∧ t.params = s.params) := by
  cases i with
  | ret =>
    rcases execRet_cases s with ⟨_, h'⟩ | ⟨k, _, h'⟩ <;> rw [exec, h'] at h <;> cases h
    · exact .inl ⟨_, rfl⟩
    · exact .inr ⟨rfl, rfl, rfl, rfl, rfl, rfl, rfl⟩
  | call nnn =>
    rcases execCall_cases nnn s with ⟨_, h'⟩ | ⟨_, h'⟩ <;> rw [exec, h'] at h <;> cases h
    · exact .inl ⟨_, rfl⟩
    · exact .inr ⟨rfl, rfl, rfl, rfl, rfl, rfl, rfl⟩
  | se x nn =>
    rcases execSe_cases x nn s with ⟨_, h'⟩ | ⟨_, h'⟩ <;> rw [exec, h'] at h <;> cases h <;>
      exact .inr ⟨rfl, rfl, rfl, rfl, rfl, rfl, rfl⟩
  | drw x y n =>
    rcases execDrw_cases x y n s with ⟨_, _, h'⟩ | ⟨_, ⟨p, _, _, h'⟩ | ⟨_, h'⟩⟩ <;> rw [exec, h'] at h <;> cases h
    · exact .inl ⟨_, rfl⟩
    · exact .inl ⟨_, rfl⟩
    · exact .inr ⟨rfl, rfl, rfl, rfl, rfl, rfl, rfl⟩
  | _ => cases h; exact .inr ⟨rfl, rfl, rfl, rfl, rfl, rfl, rfl⟩

/-! ## The step -/

/-- R121: a halted engine is stuck. -/
theorem step_halted {s : State} (h : s.halted = true) : step s = .next s := by rw [step, if_pos h]

/-- R123: a step whose fetch is out of range. -/
theorem step_fetch_none {s : State} (h : s.halted = false) (hf : fetchWord s = none) :
    step s = .next (s.raise (.fetchOutOfRange s.pc)) := by
  simp [step, h, hf]

/-- R50: a step whose fetch succeeds runs the word. -/
theorem step_fetch_some {s : State} {w : Word} (h : s.halted = false) (hf : fetchWord s = some w) :
    step s = runWord w s := by
  simp [step, h, hf]

/-- R50: a recognized word runs its instruction. -/
theorem runWord_ok {w : Word} {i : Instr} (s : State) (h : decode w = .ok i) : runWord w s = exec i s := by
  rw [runWord, h]

/-- R50: any other word takes the rule for unrecognized words. -/
theorem runWord_error {w : Word} {e : DecodeError} (s : State) (h : decode w = .error e) :
    runWord w s = execUnrecognized w s := by
  rw [runWord, h]

/-- Everything a step can do: nothing when halted, FetchOutOfRange, an instruction, or an unrecognized word. -/
theorem step_cases (s : State) :
    (s.halted = true ∧ step s = .next s) ∨
    (s.halted = false ∧ memSize ≤ s.pc.toNat + 1 ∧ step s = .next (s.raise (.fetchOutOfRange s.pc))) ∨
    (∃ w i, s.halted = false ∧ s.pc.toNat + 1 < memSize ∧ fetchWord s = some w ∧ decode w = .ok i ∧ step s = exec i s) ∨
    (∃ w e, s.halted = false ∧ s.pc.toNat + 1 < memSize ∧ fetchWord s = some w ∧ decode w = .error e ∧
      step s = execUnrecognized w s) := by
  by_cases h : s.halted = true
  · exact .inl ⟨h, step_halted h⟩
  · have hf : s.halted = false := by simpa using h
    by_cases hpc : s.pc.toNat + 1 < memSize
    · have hw := fetchWord_eq_some s hpc
      have hs := step_fetch_some hf hw
      cases hd : decode (wordOfBytes (Memory.lookup s.pc.toNat s.mem) (Memory.lookup (s.pc.toNat + 1) s.mem)) with
      | ok i => exact .inr (.inr (.inl ⟨_, i, hf, hpc, hw, hd, hs.trans (runWord_ok s hd)⟩))
      | error e => exact .inr (.inr (.inr ⟨_, e, hf, hpc, hw, hd, hs.trans (runWord_error s hd)⟩))
    · have hle := Nat.not_lt.mp hpc
      exact .inr (.inl ⟨hf, hle, step_fetch_none hf (fetchWord_eq_none s hle)⟩)

end Sys2Proof.Machine
end

