-- ==== Sys2Proof/Laws/Draw.lean ====
section
/-! SUPPORT. Laws/Draw.lean: the pixel lists of Machine/Operands.lean in the terms of Safety.lean (R95 to R99). -/

namespace Sys2Proof.Machine

/-! ## The order of the pixels (R95: by row first and then by column) -/

/-- One pixel comes before another in row-major order. -/
def Pixel.before (p q : Pixel) : Prop := p.row < q.row ∨ (p.row = q.row ∧ p.col < q.col)

theorem rowPixels_rowMajor (px row : Nat) (b : Byte) : (rowPixels px row b).Pairwise Pixel.before := by
  refine List.Pairwise.filterMap _ ?_ List.pairwise_lt_range
  intro c c' hlt p hp q hq
  split at hp <;> cases hp
  split at hq <;> cases hq
  exact .inr ⟨rfl, by simpa using hlt⟩

/-- A sprite's set pixels are in row-major order. -/
theorem spritePixels_rowMajor (px row : Nat) (rows : List Byte) : (spritePixels px row rows).Pairwise Pixel.before := by
  induction rows generalizing row with
  | nil => exact .nil
  | cons b rest ih =>
    refine List.pairwise_append.mpr ⟨rowPixels_rowMajor px row b, ih (row + 1), ?_⟩
    intro p hp q hq
    obtain ⟨c, _, _, rfl⟩ := mem_rowPixels.mp hp
    obtain ⟨r, c', _, _, _, rfl⟩ := mem_spritePixels.mp hq
    exact .inl (by simp only; omega)

/-- The out-of-range pixels are in row-major order too, so the first of them is the least. -/
theorem oobPixels_rowMajor (px row : Nat) (rows : List Byte) :
    (oobPixels (spritePixels px row rows)).Pairwise Pixel.before :=
  (spritePixels_rowMajor px row rows).filter _

/-! ## Pixels of a readable sprite -/

variable {s : State} {x y : Reg} {n : RowCount}

/-- Every row of a readable sprite is a byte of memory. -/
theorem State.spriteReadable.read (h : s.spriteReadable n) {r : Nat} (hr : r < n.val) :
    s.mem.read? (s.I.toNat + r) = some (Memory.lookup (s.I.toNat + r) s.mem) := by
  rw [Memory.read?, if_pos]
  rcases h with h | h <;> omega

/-- The pixels a DRW draws are the set pixels of its sprite, at their coordinates. -/
theorem mem_drawPixels (h : s.spriteReadable n) {p : Pixel} :
    p ∈ s.drawPixels x y (s.spriteBytes n) ↔ ∃ r c, s.pixelSet n r c ∧ p = ⟨s.pixelCol x c, s.pixelRow y r⟩ := by
  rw [State.drawPixels, mem_spritePixels]
  constructor
  · rintro ⟨r, c, hr, hc, hb, rfl⟩
    rw [State.spriteBytes_length] at hr
    exact ⟨r, c, ⟨hr, hc, _, h.read hr, by simpa [State.spriteBytes, spriteBit] using hb⟩, rfl⟩
  · rintro ⟨r, c, ⟨hr, hc, b, hb, hs⟩, rfl⟩
    rw [h.read hr] at hb
    cases hb
    exact ⟨r, c, by rwa [State.spriteBytes_length], hc, by simpa [State.spriteBytes, spriteBit] using hs, rfl⟩

/-- The out-of-range pixels of a DRW are the set pixels of its sprite that have no cell. -/
theorem mem_oobPixels (h : s.spriteReadable n) {p : Pixel} :
    p ∈ oobPixels (s.drawPixels x y (s.spriteBytes n)) ↔
      ∃ r c, s.pixelOutside x y n r c ∧ p = ⟨s.pixelCol x c, s.pixelRow y r⟩ := by
  rw [oobPixels, List.mem_filter, mem_drawPixels h, Pixel.outOfRange_iff]
  constructor
  · rintro ⟨⟨r, c, h1, rfl⟩, h2⟩
    exact ⟨r, c, ⟨h1, h2⟩, rfl⟩
  · rintro ⟨r, c, ⟨h1, h2⟩, rfl⟩
    exact ⟨⟨r, c, h1, rfl⟩, h2⟩

theorem oobPixels_eq_nil (h : s.spriteReadable n) :
    oobPixels (s.drawPixels x y (s.spriteBytes n)) = [] ↔ ¬ s.someOutside x y n := by
  rw [List.eq_nil_iff_forall_not_mem]
  constructor
  · rintro h1 ⟨r, c, h2⟩
    exact h1 _ ((mem_oobPixels h).mpr ⟨r, c, h2, rfl⟩)
  · intro h1 p hp
    obtain ⟨r, c, h2, _⟩ := (mem_oobPixels h).mp hp
    exact h1 ⟨r, c, h2⟩

end Sys2Proof.Machine
end

