-- ==== Sys2Proof/Machine/Assembler.lean ====
section
/-! DEFINITION. Machine/Assembler.lean: the assembler syntax of R60 and R61.

The syntax is the spec's own and exists to write programs down; "the hexadecimal word is always authoritative" (R59). It is no
part of the engine: no step uses it. A line of text is read into items, and items assemble to the bytes of an image.
What R60 and R61 leave open of the text is a DESIGN CHOICE (assumption log 9). -/

namespace Sys2Proof.Machine

/-- An operand as written: an operand of R60, or a label that stands for an address. -/
inductive AsmArg where
  | plain (op : AsmOperand)
  | label (name : List Char)
  deriving DecidableEq, Repr

/-- One item of a program: a label, an instruction, or a directive of R61. -/
inductive AsmItem where
  /-- `name:` stands for the address of the next byte emitted (R60). -/
  | label (name : List Char)
  | instruction (m : Mnemonic) (args : List AsmArg)
  /-- `DB b` emits one byte (R61). -/
  | db (b : Nat)
  /-- `DW w` emits a 16-bit value, most significant byte first (R61). -/
  | dw (w : Nat)
  deriving DecidableEq, Repr

/-! ## Items to bytes -/

/-- The number of bytes an item emits. -/
def AsmItem.size : AsmItem → Nat
  | .label _ => 0
  | .instruction _ _ => 2
  | .db _ => 1
  | .dw _ => 2

/-- R60: the address of each label, with the first byte emitted at `at_`. -/
def labelAddresses (at_ : Nat) : List AsmItem → List (List Char × Nat)
  | [] => []
  | .label name :: rest => (name, at_) :: labelAddresses at_ rest
  | item :: rest => labelAddresses (at_ + item.size) rest

/-- An operand with its label replaced by the label's address; none for a label no line defines. -/
def AsmArg.resolve (labels : List (List Char × Nat)) : AsmArg → Option AsmOperand
  | .plain op => some op
  | .label name => (labels.find? (fun entry => entry.1 == name)).map fun entry => .imm entry.2

/-- Resolve every operand of an instruction. -/
def resolveArgs (labels : List (List Char × Nat)) : List AsmArg → Option (List AsmOperand)
  | [] => some []
  | a :: rest =>
    match a.resolve labels, resolveArgs labels rest with
    | some op, some ops => some (op :: ops)
    | _, _ => none

/-- The bytes of one item; none for an assembly error, such as an operand outside its range (R60). -/
def AsmItem.emit (labels : List (List Char × Nat)) : AsmItem → Option (List Byte)
  | .label _ => some []
  | .instruction m args =>
    match resolveArgs labels args with
    | some ops => ((⟨m, ops⟩ : AsmLine).toInstr?).map encodeBytes
    | none => none
  | .db b => (byteOf b).map fun v => [v]
  | .dw w => if w ≤ 0xFFFF then some (bytesOfWord (BitVec.ofNat 16 w)) else none

/-- The bytes of every item in order. -/
def emitAll (labels : List (List Char × Nat)) : List AsmItem → Option (List Byte)
  | [] => some []
  | item :: rest =>
    match item.emit labels, emitAll labels rest with
    | some bytes, some more => some (bytes ++ more)
    | _, _ => none

/-- R60: the image a program assembles to, its first byte at 0x200. -/
def assemble (items : List AsmItem) : Option (List Byte) :=
  emitAll (labelAddresses programStart items) items

/-! ## Text to items -/

/-- R60: a mnemonic in capitals. -/
def mnemonicText : Mnemonic → List Char
  | .RET => ['R', 'E', 'T']
  | .JP => ['J', 'P']
  | .CALL => ['C', 'A', 'L', 'L']
  | .SE => ['S', 'E']
  | .LDI => ['L', 'D', 'I']
  | .ADDI => ['A', 'D', 'D', 'I']
  | .CPY => ['C', 'P', 'Y']
  | .OR => ['O', 'R']
  | .AND => ['A', 'N', 'D']
  | .XOR => ['X', 'O', 'R']
  | .LDIDX => ['L', 'D', 'I', 'D', 'X']
  | .DRW => ['D', 'R', 'W']
  | .RDDT => ['R', 'D', 'D', 'T']
  | .WRDT => ['W', 'R', 'D', 'T']
  | .ADDIDX => ['A', 'D', 'D', 'I', 'D', 'X']

/-- The 15 mnemonics in the order of R60. -/
def allMnemonics : List Mnemonic :=
  [.RET, .JP, .CALL, .SE, .LDI, .ADDI, .CPY, .OR, .AND, .XOR, .LDIDX, .DRW, .RDDT, .WRDT, .ADDIDX]

/-- The value of a hexadecimal digit, in capitals or small letters. -/
def hexDigit? (c : Char) : Option Nat :=
  let n := c.toNat
  if 48 ≤ n ∧ n ≤ 57 then some (n - 48)
  else if 65 ≤ n ∧ n ≤ 70 then some (n - 55)
  else if 97 ≤ n ∧ n ≤ 102 then some (n - 87)
  else none

/-- The number that digits of a base spell after `acc`; none for a digit the base does not have. -/
def digitsValue? (base acc : Nat) : List Char → Option Nat
  | [] => some acc
  | c :: rest =>
    match hexDigit? c with
    | some d => if d < base then digitsValue? base (acc * base + d) rest else none
    | none => none

/-- R60: a number in hexadecimal with `0x`, or in decimal. -/
def numberOf? : List Char → Option Nat
  | '0' :: 'x' :: d :: rest => digitsValue? 16 0 (d :: rest)
  | d :: rest => digitsValue? 10 0 (d :: rest)
  | [] => none

/-- R60: `V` and one hexadecimal digit is a register; a number is an immediate; any other word is a label. -/
def argOf (word : List Char) : AsmArg :=
  match word with
  | ['V', d] =>
    match hexDigit? d with
    | some r => .plain (.reg r)
    | none => .label word
  | _ =>
    match numberOf? word with
    | some n => .plain (.imm n)
    | none => .label word

/-- Split a text at every character a test holds for. -/
def splitOn (isSep : Char → Bool) : List Char → List (List Char)
  | [] => [[]]
  | c :: rest =>
    match splitOn isSep rest with
    | [] => [[]]
    | first :: more => if isSep c then [] :: first :: more else (c :: first) :: more

/-- The words of a text: what stands between spaces and commas. -/
def wordsOf (text : List Char) : List (List Char) :=
  (splitOn (fun c => c == ' ' || c == ',') text).filter fun w => !w.isEmpty

/-- The item a statement's words spell; none for an unknown mnemonic or a directive without its one number. -/
def itemOfWords : List (List Char) → Option AsmItem
  | [] => none
  | head :: args =>
    if head = ['D', 'B'] then
      match args with
      | [w] => (numberOf? w).map .db
      | _ => none
    else if head = ['D', 'W'] then
      match args with
      | [w] => (numberOf? w).map .dw
      | _ => none
    else (allMnemonics.find? (fun m => mnemonicText m == head)).map fun m => .instruction m (args.map argOf)

/-- A label's word: its name and a colon. -/
def labelOf? (word : List Char) : Option (List Char) :=
  match word.reverse with
  | ':' :: name => some name.reverse
  | _ => none

/-- R60: one line, at most a label, one instruction or directive, and a comment after `;`. -/
def itemsOfLine (line : List Char) : Option (List AsmItem) :=
  match wordsOf (line.takeWhile (· ≠ ';')) with
  | [] => some []
  | head :: rest =>
    match labelOf? head with
    | some name => if rest.isEmpty then some [.label name] else (itemOfWords rest).map fun item => [.label name, item]
    | none => (itemOfWords (head :: rest)).map fun item => [item]

/-- The items of a program's lines. -/
def itemsOfLines : List (List Char) → Option (List AsmItem)
  | [] => some []
  | line :: rest =>
    match itemsOfLine line, itemsOfLines rest with
    | some items, some more => some (items ++ more)
    | _, _ => none

/-- R60, R61: the image the lines of a program assemble to. -/
def assembleText (lines : List (List Char)) : Option (List Byte) :=
  match itemsOfLines lines with
  | some items => assemble items
  | none => none

end Sys2Proof.Machine
end

