-- ==== Sys2Proof/Tests/Slice0.lean ====
section
/-! SUPPORT. Tests/Slice0.lean: smoke tests of WellFormed, decoding of words written out from R54, one-step tests whose expected
results are the vectors of 95_test_vectors.md (the id stands in each name), and a witness for every statement's hypotheses. -/

namespace Sys2Proof.Tests

open Sys2Proof.Machine

/-! ## WellFormed: an ill-formed term for each check, which the check refuses (R60) -/

theorem test_wf_register_out_of_range : (⟨.LDI, [.reg 16, .imm 0]⟩ : AsmLine).wellFormed = false := by decide
theorem test_wf_second_register_out_of_range : (⟨.CPY, [.reg 0, .reg 16]⟩ : AsmLine).wellFormed = false := by decide
theorem test_wf_byte_out_of_range : (⟨.SE, [.reg 0, .imm 0x100]⟩ : AsmLine).wellFormed = false := by decide
theorem test_wf_address_out_of_range : (⟨.JP, [.imm 0x1000]⟩ : AsmLine).wellFormed = false := by decide
theorem test_wf_rows_out_of_range : (⟨.DRW, [.reg 0, .reg 0, .imm 16]⟩ : AsmLine).wellFormed = false := by decide
theorem test_wf_missing_operand : (⟨.ADDI, [.reg 0]⟩ : AsmLine).wellFormed = false := by decide
theorem test_wf_wrong_operand_kind : (⟨.LDIDX, [.reg 0]⟩ : AsmLine).wellFormed = false := by decide
theorem test_wf_extra_operand : (⟨.RET, [.imm 0]⟩ : AsmLine).wellFormed = false := by decide
/-- An operand out of range is an error, not a truncation. -/
theorem test_wf_no_truncation : (⟨.JP, [.imm 0x1200]⟩ : AsmLine).toInstr? = none := by decide
theorem test_wf_largest_operands : (⟨.DRW, [.reg 15, .reg 15, .imm 15]⟩ : AsmLine).wellFormed = true := by decide

/-! ## Decoding, by the patterns of R54 -/

theorem test_decode_ret : decode 0b0000000011101110 = .ok .ret := by decide
theorem test_decode_jp : decode 0b0001101010111100 = .ok (.jp 0xABC) := by decide
theorem test_decode_call : decode 0b0010111111111111 = .ok (.call 0xFFF) := by decide
theorem test_decode_se : decode 0b0011110001111111 = .ok (.se 12 0x7F) := by decide
theorem test_decode_ldi : decode 0b0110111100000000 = .ok (.ldi 15 0x00) := by decide
theorem test_decode_addi : decode 0b0111000011111111 = .ok (.addi 0 0xFF) := by decide
theorem test_decode_cpy : decode 0b1000101010110000 = .ok (.cpy 10 11) := by decide
theorem test_decode_or : decode 0b1000000000010001 = .ok (.or 0 1) := by decide
theorem test_decode_and : decode 0b1000111111110010 = .ok (.and 15 15) := by decide
theorem test_decode_xor : decode 0b1000000100100011 = .ok (.xor 1 2) := by decide
theorem test_decode_ldidx : decode 0b1010000100100011 = .ok (.ldidx 0x123) := by decide
theorem test_decode_drw : decode 0b1101010110100011 = .ok (.drw 5 10 3) := by decide
theorem test_decode_rddt : decode 0b1111100100000111 = .ok (.rddt 9) := by decide
theorem test_decode_wrdt : decode 0b1111000100010101 = .ok (.wrdt 1) := by decide
theorem test_decode_addidx : decode 0b1111111000011110 = .ok (.addidx 14) := by decide

/-- 95_test_vectors.md section 2.1, the four rows of unrecognized words. -/
theorem test_decode_unrecognized :
    ([0x0000, 0x00E0, 0x00EF, 0x01EE, 0x0FEE, 0x000E, 0x4000, 0x5120, 0x9120, 0xB300, 0xC0FF, 0xE19E, 0xE1A1, 0x8014, 0x8015,
      0x8016, 0x8017, 0x801E, 0x801F, 0xF000, 0xF006, 0xF008, 0xF00A, 0xF014, 0xF016, 0xF018, 0xF01D, 0xF01F, 0xF029, 0xF033,
      0xF055, 0xF065, 0xF0FF, 0xF114] : List Word).all (fun w => decide (decode w = .error (.unrecognized w))) = true := by
  decide
/-- E-1: the bytes 0x6A, 0x2B are LDI VA, 0x2B. -/
theorem test_decode_big_endian : decodeBytes [0x6A, 0x2B, 0x00] = .ok (.ldi 10 0x2B, [0x00]) := by decide
theorem test_decode_truncated : decodeBytes [0x6A] = .error .truncated := by decide
theorem test_decode_table_word : decodeTableWord 16 0xF315 = some (.wrdt 3) := by decide

/-! ## One step -/

/-- The state after one step that runs a word at `pc`. -/
def after (s : State) (w : Nat) : Option State :=
  match step (s.withFetchWord 16 w) with
  | .next t => some t
  | .fault _ => none
  | .refused _ => none

/-- Reset with the two registers of a `DXYN` example and a sprite at 0x300 (95_test_vectors.md section 2.6). -/
def drawState (policy : DrawOobPolicy) (x0 x1 : Byte) (sprite : List Byte) : State :=
  { ((State.resetWith { Params.reference with drawOob := policy }).writeReg 0 x0).writeReg 1 x1 with
    I := 0x300, mem := Memory.writeBytes [] 0x300 sprite }

/-- The status a fault leaves, and `pc`. -/
def status (t : State) : Bool × Nat × Nat × Nat × Nat :=
  (t.halted, t.cause.toNat, t.info.1.toNat, t.info.2.toNat, t.pc.toNat)

/-- The values of some cells. -/
def cells (t : State) (cs : List Coord) : List Bool := cs.map t.fb.cell

theorem test_E2_last_fetchable :
    (after { State.reset with pc := 0xFFE } 0x6107).map (fun t => (t.readReg 1, t.pc)) = some (7, 0x1000) := by decide
theorem test_E3_fetch_at_last_byte :
    (after { State.reset with pc := 0xFFF } 0x6107).map status = some (true, 1, 0x0FFF, 0, 0x0FFF) := by decide
theorem test_E5_fetch_at_top : (after { State.reset with pc := 0xFFFF } 0).map status = some (true, 1, 0xFFFF, 0, 0xFFFF) := by
  decide
theorem test_E6_odd_pc :
    (after { State.reset with pc := 0x201 } 0x6509).map (fun t => (t.readReg 5, t.pc)) = some (9, 0x203) := by decide
theorem test_E8_halted : (after { State.reset with halted := true } 0x6509).map (fun t => (t.readReg 5, t.pc)) =
    some (0, 0x200) := by decide

theorem test_C1_ret_empty : (after State.reset 0x00EE).map (fun t => (status t, t.sp)) = some ((true, 4, 0x200, 0, 0x200), 0) := by
  decide
theorem test_C2_ret_full :
    (after { State.reset with sp := 16, stack := State.reset.stack.set 15 0x0ABC } 0x00EE).map
      (fun t => (t.pc, t.sp, t.stack[15])) = some (0xABC, 15, 0x0ABC) := by decide
theorem test_S3_jp_odd_target : (after State.reset 0x1225).map (fun t => t.pc) = some 0x225 := by decide
theorem test_C4_jp_self : (after State.reset 0x1200) = some (State.reset.withFetchWord 16 0x1200) := by decide
theorem test_C6_call_last_room :
    (after { State.reset with pc := 0x300, sp := 15 } 0x2400).map (fun t => (t.stack[15], t.sp, t.pc)) =
      some (0x0302, 16, 0x400) := by decide
theorem test_C7_call_full :
    (after { State.reset with pc := 0x300, sp := 16 } 0x2400).map (fun t => (status t, t.sp)) =
      some ((true, 3, 0x300, 0, 0x300), 16) := by decide
theorem test_S5_se_equal : (after (State.reset.writeReg 0 12) 0x300C).map (fun t => t.pc) = some 0x204 := by decide
theorem test_C13_se_unequal : (after (State.reset.writeReg 0 0xFE) 0x30FF).map (fun t => t.pc) = some 0x202 := by decide

theorem test_I1_ldi : (after (State.reset.writeReg 5 0xFF) 0x6512).map (fun t => (t.readReg 5, t.pc)) = some (0x12, 0x202) := by
  decide
theorem test_S2_addi_wraps :
    (after (State.reset.writeReg 1 254) 0x7104).map (fun t => (t.readReg 1, t.readReg 15, t.pc)) = some (2, 0, 0x202) := by decide
theorem test_I6_addi_vf : (after (State.reset.writeReg 15 0xFF) 0x7F02).map (fun t => t.readReg 15) = some 0x01 := by decide

theorem test_R1_cpy :
    (after ((State.reset.writeReg 1 0x11).writeReg 2 0xEE) 0x8120).map (fun t => (t.readReg 1, t.readReg 2)) =
      some (0xEE, 0xEE) := by decide
theorem test_R10_or :
    (after ((State.reset.writeReg 15 0x01).writeReg 14 0x80) 0x8FE1).map (fun t => (t.readReg 15, t.readReg 14)) =
      some (0x81, 0x80) := by decide
theorem test_R9_and_keeps_vf :
    (after (((State.reset.writeReg 0 3).writeReg 1 5).writeReg 15 1) 0x8012).map (fun t => (t.readReg 0, t.readReg 15)) =
      some (1, 1) := by decide
theorem test_R6_xor :
    (after ((State.reset.writeReg 0 0xAA).writeReg 1 0xFF) 0x8013).map (fun t => (t.readReg 0, t.readReg 1)) =
      some (0x55, 0xFF) := by decide
theorem test_R7_xor_self : (after (State.reset.writeReg 0 0xC3) 0x8003).map (fun t => t.readReg 0) = some 0x00 := by decide

theorem test_X1_ldidx : (after { State.reset with I := 0xFFFF } 0xA123).map (fun t => (t.I, t.pc)) = some (0x0123, 0x202) := by
  decide
theorem test_X5_addidx_no_wrap_at_12_bits :
    (after { State.reset.writeReg 0 1 with I := 0x0FFF } 0xF01E).map (fun t => (t.I, t.readReg 15)) = some (0x1000, 0) := by decide
theorem test_X7_addidx_wraps :
    (after { State.reset.writeReg 0 0xFF with I := 0xFFF0 } 0xF01E).map (fun t => (t.I, t.readReg 15)) = some (0x00EF, 0) := by
  decide

theorem test_T4_rddt : (after { State.reset with DT := 0x21 } 0xFF07).map (fun t => (t.readReg 15, t.DT)) = some (0x21, 0x21) := by
  decide
theorem test_T2_wrdt : (after { State.reset.writeReg 5 0xFF with DT := 3 } 0xF515).map (fun t => (t.DT, t.readReg 5)) =
    some (0xFF, 0xFF) := by decide

/-- D-13: register X gives the column and register Y the row. -/
theorem test_D13_drw_column_row :
    (after (drawState .fault 20 3 [0x80]) 0xD011).map (fun t => (cells t [⟨20, 3⟩, ⟨3, 20⟩, ⟨21, 3⟩], t.readReg 15, t.dirty, t.pc)) =
      some ([true, false, false], 0, true, 0x202) := by decide
/-- D-8: a row that crosses the right edge, with cell (0, 0) set, under `wrap`. -/
theorem test_D8_drw_wrap_collision :
    (after { drawState .wrap 60 0 [0xFF] with fb := State.reset.fb.toggle ⟨0, 0⟩ } 0xD011).map
      (fun t => (cells t [⟨0, 0⟩, ⟨1, 0⟩, ⟨3, 0⟩, ⟨4, 0⟩, ⟨59, 0⟩, ⟨60, 0⟩, ⟨63, 0⟩], t.readReg 15, t.drawOobSeen)) =
      some ([false, true, true, false, false, true, true], 1, true) := by decide
theorem test_D9_drw_clip :
    (after (drawState .clip 0 31 [0x80, 0x80]) 0xD012).map (fun t => (cells t [⟨0, 31⟩, ⟨0, 0⟩], t.drawOobSeen)) =
      some ([true, false], true) := by decide
theorem test_D11_drw_sum_above_255 :
    (after (drawState .fault 250 0 [0x01]) 0xD011).map (fun t => (status t, t.dirty)) =
      some ((true, 5, 257, 0, 0x200), false) := by decide
theorem test_D22_drw_priority :
    (after { drawState .fault 70 0 [] with I := 0x0FFF, mem := [(0xFFF, 0xFF)] } 0xD012).map (fun t => (status t, t.dirty)) =
      some ((true, 2, 0x1000, 0x200, 0x200), false) := by decide
theorem test_D16_drw_vf_column :
    (after ((drawState .fault 0 2 [0x80]).writeReg 15 20) 0xDF11).map (fun t => (cells t [⟨20, 2⟩, ⟨0, 2⟩], t.readReg 15)) =
      some ([true, false], 0) := by decide

theorem test_Q2_unrecognized_skip :
    (after State.reset 0x00E0).map (fun t => (t.pc, t.unimplSeen, t.reports, t.halted)) =
      some (0x202, true, [⟨0x00E0, 0x0200⟩], false) := by decide
theorem test_Q4_unrecognized_fault :
    (after (State.resetWith { Params.reference with unknownOpcode := .fault }) 0x8014).map (fun t => (status t, t.unimplSeen)) =
      some ((true, 6, 0x200, 0x8014, 0x200), false) := by decide

/-! ## The host -/

theorem test_T5_tick :
    ({ State.resetWith { Params.reference with timerTickEnable := true } with DT := 2 } : State).tick?.map (·.DT) = some 1 := by
  decide
theorem test_T6_tick_saturates :
    (State.resetWith { Params.reference with timerTickEnable := true }).tick?.map (·.DT) = some 0 := by decide
theorem test_T8_no_tick : State.reset.tick? = none := by decide
theorem test_H3_no_render_ack : State.reset.renderAck? = none := by decide
theorem test_S8_image_bytes :
    (launch Params.reference [0x22, 0x48]).map (fun t => (t.mem, t.pc)) = some ([(0x200, 0x22), (0x201, 0x48)], 0x200) := by decide
theorem test_S8_image_too_large : launch Params.reference (List.replicate 3585 0) = none := by
  rw [launch, State.loadImage, if_pos (by rw [List.length_replicate]; decide)]

/-- P1: the assembler gives the program's image. -/
theorem test_P1_assembles :
    assembleText ["  LDI  V0, 0".toList, "loop: ADDI V0, 1".toList, "  SE   V0, 0x5 ; five".toList, "  JP   loop".toList,
      "end:".toList, "  JP end".toList] = some [0x60, 0x00, 0x70, 0x01, 0x30, 0x05, 0x12, 0x02, 0x12, 0x08] := by decide
theorem test_directives_assemble : assembleText ["DB 0xC0".toList, "DW 0x00E0".toList] = some [0xC0, 0x00, 0xE0] := by decide
theorem test_assembly_error : assembleText ["LDI V0, 256".toList] = none := by decide

/-! ## Witnesses: for each statement with hypotheses, states and operands that meet all of them, clause by clause -/

/-- Reset with a word at `pc`. -/
def placed (w : Nat) : State := State.reset.withFetchWord 16 w

/-- Reset under the strict policy for unrecognized words, with a word at `pc`. -/
def strict (w : Nat) : State :=
  (State.resetWith { Params.reference with unknownOpcode := .fault }).withFetchWord 16 w

/-- Reset with the tick enabled. -/
def ticking : State := State.resetWith { Params.reference with timerTickEnable := true }

theorem witness_DecodedWordIsItsEncoding : decode 0x8AB3 = .ok (.xor 10 11) := by decide

theorem witness_OpcodeRowsDisjoint :
    (⟨.WRDT, 0xF015, 0xF0FF⟩ : OpcodeRow) ∈ opcodeTable ∧ (⟨.WRDT, 0xF015, 0xF0FF⟩ : OpcodeRow).selects 0xF315 = true := by
  decide

theorem witness_StepFollowsInstructionCycle_halted : ({ State.reset with halted := true } : State).halted = true := rfl
theorem witness_StepFollowsInstructionCycle_fetch :
    State.reset.halted = false ∧ memSize ≤ ({ State.reset with pc := 0xFFF } : State).pc.toNat + 1 := by decide
theorem witness_StepFollowsInstructionCycle_row :
    let s : State := { State.reset with pc := 0xFFE, mem := [(0xFFE, 0x61), (0xFFF, 0x07)] }
    s.halted = false ∧ s.mem.read? s.pc.toNat = some 0x61 ∧ s.mem.read? (s.pc.toNat + 1) = some 0x07 ∧
      decode ((0x61 : Byte) ++ (0x07 : Byte)) = .ok (.ldi 1 7) := by decide
theorem witness_StepFollowsInstructionCycle_noRow :
    State.reset.halted = false ∧ State.reset.mem.read? State.reset.pc.toNat = some 0 ∧
      State.reset.mem.read? (State.reset.pc.toNat + 1) = some 0 ∧
      decode ((0 : Byte) ++ (0 : Byte)) = .error (.unrecognized 0) := by decide

theorem witness_FetchIsBigEndian : ({ State.reset with pc := 0xFFE } : State).pc.toNat + 1 < memSize := by decide
theorem witness_FetchBoundsChecked :
    memSize ≤ ({ State.reset with pc := 0xFFF } : State).pc.toNat + 1 ∧ State.reset.halted = false := by decide

theorem witness_PlacedWordIsFetched :
    let s : State := { State.reset with pc := 0xFFE }
    s.mem.wf = true ∧ s.halted = false ∧ s.pc.toNat + 1 < memSize := by decide

theorem witness_UnrecognizedWordSkipped :
    (placed 0x00E0).halted = false ∧ fetchWord (placed 0x00E0) = some 0x00E0 ∧ decode 0x00E0 = .error (.unrecognized 0x00E0) ∧
      (placed 0x00E0).params.unknownOpcode = .skip := by decide

theorem witness_UnrecognizedWordFaults :
    (strict 0x00E0).halted = false ∧ fetchWord (strict 0x00E0) = some 0x00E0 ∧ decode 0x00E0 = .error (.unrecognized 0x00E0) ∧
      (strict 0x00E0).params.unknownOpcode = .fault := by decide

theorem witness_SkipIfEqualAdvances : State.reset.readReg 15 = 0 ∧ State.reset.readReg 15 ≠ 1 := by decide

theorem witness_CallPushesOrOverflows :
    ({ State.reset with sp := 15 } : State).sp.val = (15 : Fin stackDepth).val ∧
      ({ State.reset with sp := 16 } : State).sp.val = stackDepth := by decide

theorem witness_ReturnPopsOrUnderflows :
    ({ State.reset with sp := 1 } : State).sp.val = (0 : Fin stackDepth).val + 1 ∧
      ({ State.reset with sp := 16 } : State).sp.val = (15 : Fin stackDepth).val + 1 ∧ State.reset.sp.val = 0 := by decide

theorem witness_ReturnUndoesCall : ({ State.reset with sp := 15 } : State).sp.val < stackDepth := by decide

theorem witness_JumpToSelfIsFixedPoint : (placed 0x1200).atFixedPoint := ⟨rfl, 0x200, rfl, by decide⟩

theorem witness_TimerReadAfterTicks :
    ticking.params.timerTickEnable = true ∧ exec (.wrdt 0) ticking = .next ticking.advance := ⟨rfl, rfl⟩

theorem witness_DrawPastMemoryFaults :
    1 ≤ (2 : RowCount).val ∧ memSize ≤ ({ State.reset with I := 0xFFF } : State).I.toNat + (2 : RowCount).val - 1 := by decide

/-- The sprite of D-7: its pixels of columns 4 to 7 fall right of column 63. -/
theorem drawState_firstOutside (policy : DrawOobPolicy) :
    (drawState policy 60 0 [0xFF]).spriteReadable 1 ∧ (drawState policy 60 0 [0xFF]).firstOutside 0 1 1 0 4 := by
  refine ⟨.inr (by decide : (0x300 : Nat) + 1 ≤ memSize), ⟨⟨by decide, by decide, 0xFF, rfl, rfl⟩, .inl (by decide : 64 ≤ 64)⟩, ?_⟩
  rintro r c ⟨⟨hr, hc, -⟩, h⟩
  have hr0 : r = 0 := Nat.lt_one_iff.mp hr
  subst hr0
  have hcol : (drawState policy 60 0 [0xFF]).pixelCol 0 c = 60 + c := rfl
  have hrow : (drawState policy 60 0 [0xFF]).pixelRow 1 0 = 0 := rfl
  rw [hcol, hrow] at h
  simp only [fbWidth, fbHeight] at h
  exact .inr ⟨rfl, by omega⟩

theorem witness_DrawOutsideFramebuffer_fault :
    (drawState .fault 60 0 [0xFF]).spriteReadable 1 ∧ (drawState .fault 60 0 [0xFF]).firstOutside 0 1 1 0 4 ∧
      (drawState .fault 60 0 [0xFF]).params.drawOob = .fault :=
  ⟨(drawState_firstOutside .fault).1, (drawState_firstOutside .fault).2, rfl⟩
theorem witness_DrawOutsideFramebuffer_clip :
    (drawState .clip 60 0 [0xFF]).spriteReadable 1 ∧ (drawState .clip 60 0 [0xFF]).firstOutside 0 1 1 0 4 ∧
      (drawState .clip 60 0 [0xFF]).params.drawOob ≠ .fault :=
  ⟨(drawState_firstOutside .clip).1, (drawState_firstOutside .clip).2, nofun⟩

/-- The sprite of D-4: all set bits in range, in the last columns. -/
theorem drawState_inside (policy : DrawOobPolicy) :
    (drawState policy 60 5 [0xF0]).spriteReadable 1 ∧ ¬ (drawState policy 60 5 [0xF0]).someOutside 0 1 1 := by
  have h : (drawState policy 60 5 [0xF0]).spriteReadable 1 := .inr (by decide : (0x300 : Nat) + 1 ≤ memSize)
  refine ⟨h, (oobPixels_eq_nil h).mp ?_⟩
  cases policy <;> decide

/-- R97: the cell (60, 5) is drawn by the sprite of D-4. -/
theorem drawState_drawnAt (policy : DrawOobPolicy) : (drawState policy 60 5 [0xF0]).drawnAt 0 1 1 ⟨60, 5⟩ :=
  ⟨0, 0, ⟨by decide, by decide, 0xF0, rfl, rfl⟩, .inl ⟨rfl, rfl⟩⟩

theorem drawState_not_drawnAt (policy : DrawOobPolicy) : ¬ (drawState policy 60 5 [0xF0]).drawnAt 0 1 1 ⟨60, 6⟩ := by
  rintro ⟨r, c, ⟨hr, -⟩, h⟩
  have hr0 : r = 0 := Nat.lt_one_iff.mp hr
  subst hr0
  have hrow : (drawState policy 60 5 [0xF0]).pixelRow 1 0 = 5 := rfl
  rw [hrow] at h
  rcases h with ⟨-, h⟩ | ⟨-, -, h⟩ <;> revert h <;> decide

theorem witness_DrawResult_fault :
    (drawState .fault 60 5 [0xF0]).spriteReadable 1 ∧ ¬ (drawState .fault 60 5 [0xF0]).someOutside 0 1 1 ∧
      (drawState .fault 60 5 [0xF0]).drawnAt 0 1 1 ⟨60, 5⟩ ∧ ¬ (drawState .fault 60 5 [0xF0]).drawnAt 0 1 1 ⟨60, 6⟩ :=
  ⟨(drawState_inside _).1, (drawState_inside _).2, drawState_drawnAt _, drawState_not_drawnAt _⟩
theorem witness_DrawResult_wrap :
    (drawState .wrap 60 0 [0xFF]).spriteReadable 1 ∧
      ((drawState .wrap 60 0 [0xFF]).params.drawOob = .fault → ¬ (drawState .wrap 60 0 [0xFF]).someOutside 0 1 1) ∧
      (drawState .wrap 60 0 [0xFF]).someOutside 0 1 1 ∧ (drawState .wrap 60 0 [0xFF]).drawnAt 0 1 1 ⟨0, 0⟩ :=
  ⟨(drawState_firstOutside .wrap).1, nofun, ⟨0, 4, (drawState_firstOutside .wrap).2.1⟩,
    ⟨0, 4, ⟨by decide, by decide, 0xFF, rfl, rfl⟩, .inr ⟨rfl, rfl, rfl⟩⟩⟩
/-- The clause on collisions: the drawn cell (60, 5) already 1. -/
theorem witness_DrawResult_collision :
    let s : State := { drawState .fault 60 5 [0xF0] with fb := State.reset.fb.toggle ⟨60, 5⟩ }
    s.drawnAt 0 1 1 ⟨60, 5⟩ ∧ s.fb.cell ⟨60, 5⟩ = true :=
  ⟨drawState_drawnAt .fault, by decide⟩

theorem witness_NoCellToggledTwice : (List.replicate 15 (0xFF : Byte)).length ≤ 15 := by decide

theorem witness_DrawTwiceRestores :
    let s := drawState .fault 60 5 [0xF0]
    let t := s.drawSprite (s.drawPixels 0 1 (s.spriteBytes 1))
    s.spriteReadable 1 ∧ (s.params.drawOob = .fault → ¬ s.someOutside 0 1 1) ∧ exec (.drw 0 1 1) s = .next t ∧
      t.readReg 0 = s.readReg 0 ∧ t.readReg 1 = s.readReg 1 :=
  ⟨(drawState_inside .fault).1, fun _ => (drawState_inside .fault).2, rfl, rfl, rfl⟩

theorem witness_PoliciesAgreeInside :
    let s := drawState .fault 60 5 [0xF0]
    s.spriteReadable 1 ∧ ¬ s.someOutside 0 1 1 ∧
      exec (.drw 0 1 1) s = .next (s.drawSprite (s.drawPixels 0 1 (s.spriteBytes 1))) :=
  ⟨(drawState_inside .fault).1, (drawState_inside .fault).2, rfl⟩

/-- A fault entry: RET with an empty stack. -/
theorem placed_ret_faults : step (placed 0x00EE) = .next ((placed 0x00EE).raise (.stackUnderflow 0x200)) := rfl
theorem witness_FaultsPreciseAndFinal_entry :
    step (placed 0x00EE) = .next ((placed 0x00EE).raise (.stackUnderflow 0x200)) ∧ (placed 0x00EE).halted = false ∧
      ((placed 0x00EE).raise (.stackUnderflow 0x200)).halted = true := ⟨rfl, rfl, rfl⟩
theorem witness_FaultsPreciseAndFinal_final :
    let s := (placed 0x00EE).raise (.stackUnderflow 0x200)
    s.halted = true ∧ Transition s s := ⟨rfl, .inl rfl⟩

theorem witness_OnlyDestinationRegisterWritten :
    exec (.ldi 3 7) State.reset = .next (State.reset.writeReg 3 7).advance ∧ destination (.ldi 3 7) ≠ some 15 := ⟨rfl, by decide⟩

theorem witness_OnlyControlFlowRedirects :
    exec (.ldi 3 7) State.reset = .next (State.reset.writeReg 3 7).advance ∧ State.reset.halted = false ∧
      (State.reset.writeReg 3 7).advance.halted = false ∧ Instr.ldi 3 7 ≠ .ret ∧ (∀ nnn, Instr.ldi 3 7 ≠ .jp nnn) ∧
      (∀ nnn, Instr.ldi 3 7 ≠ .call nnn) ∧ (∀ x nn, Instr.ldi 3 7 ≠ .se x nn) := ⟨rfl, rfl, rfl, nofun, nofun, nofun, nofun⟩

theorem witness_OnlyCallAndReturnUseStack :
    exec (.ldi 3 7) State.reset = .next (State.reset.writeReg 3 7).advance ∧ (∀ nnn, Instr.ldi 3 7 ≠ .call nnn) ∧
      Instr.ldi 3 7 ≠ .ret := ⟨rfl, nofun, nofun⟩

theorem witness_OnlyTheirInstructionsWriteIndexAndTimer :
    exec (.ldi 3 7) State.reset = .next (State.reset.writeReg 3 7).advance ∧ (∀ nnn, Instr.ldi 3 7 ≠ .ldidx nnn) ∧
      (∀ x, Instr.ldi 3 7 ≠ .addidx x) ∧ (∀ x, Instr.ldi 3 7 ≠ .wrdt x) := ⟨rfl, nofun, nofun, nofun⟩

theorem witness_OnlyDrawWritesDisplay_frame :
    exec (.ldi 3 7) State.reset = .next (State.reset.writeReg 3 7).advance ∧ (∀ x y n, Instr.ldi 3 7 ≠ .drw x y n) :=
  ⟨rfl, nofun⟩
theorem witness_OnlyDrawWritesDisplay_dirty :
    let s : State := { State.reset with dirty := true }
    step s = .next (s.report ⟨0, 0x200⟩).advance ∧ s.dirty = true := ⟨rfl, rfl⟩

theorem witness_MemoryAndParametersConstant : Transition State.reset (State.reset.report ⟨0, 0x200⟩).advance := .inl rfl

theorem witness_StickyBitsNeverCleared :
    let s : State := { State.reset with unimplSeen := true, drawOobSeen := true }
    Transition s (s.report ⟨0, 0x200⟩).advance ∧ s.unimplSeen = true ∧ s.drawOobSeen = true := ⟨.inl rfl, rfl, rfl⟩

theorem witness_ReportsAreTheSkippedWords_skip :
    step State.reset = .next (State.reset.report ⟨0, 0x200⟩).advance ∧ State.reset.halted = false ∧
      State.reset.params.unknownOpcode = .skip ∧ fetchWord State.reset = some 0 ∧ decode 0 = .error (.unrecognized 0) :=
  ⟨rfl, rfl, rfl, by decide, by decide⟩
theorem witness_ReportsAreTheSkippedWords_none :
    step (strict 0) = .next ((strict 0).raise (.illegalInstruction 0x200 0)) ∧
      ¬ ∃ w, (strict 0).halted = false ∧ (strict 0).params.unknownOpcode = .skip ∧ fetchWord (strict 0) = some w ∧
        decode w = .error (.unrecognized w) :=
  ⟨rfl, fun ⟨_, _, h, _⟩ => nomatch h⟩

theorem witness_HostVisibleStateDoesNotLeak :
    let s' : State := { State.reset with dirty := true, unimplSeen := true, reports := [⟨0, 0⟩] }
    SameToProgram State.reset s' ∧ step State.reset = .next (State.reset.report ⟨0, 0x200⟩).advance :=
  ⟨⟨rfl, rfl, rfl, rfl, rfl, rfl, rfl, rfl, rfl, rfl⟩, rfl⟩

/-- A state that is not the reset state and meets the invariant: one entry on the stack and two bytes of memory. -/
theorem witness_StepKeepsInvariant :
    let s : State := { placed 0x00EE with sp := 1, stack := State.reset.stack.set 0 0x0202 }
    s.Inv ∧ step s = .next { s with sp := 0, pc := 0x0202 } := by
  refine ⟨⟨by decide, ⟨fun _ => ⟨rfl, rfl⟩, nofun⟩, rfl, ⟨nofun, fun _ => rfl⟩, by decide, ?_⟩, rfl⟩
  intro k hk
  have hk0 : k = 0 := Fin.ext (Nat.lt_one_iff.mp hk)
  subst hk0
  decide

theorem witness_ReachableStatesSatisfyInvariant : Reachable State.reset := .launched Params.reference [] State.reset rfl

theorem witness_LoadImageAllOrNothing_loads : (List.replicate 3584 (0 : Byte)).length ≤ 3584 :=
  Nat.le_of_eq List.length_replicate
theorem witness_LoadImageAllOrNothing_rejects : 3584 < (List.replicate 3585 (0 : Byte)).length := by
  rw [List.length_replicate]; decide
/-- The inner clauses, at the last address an image can reach and at the byte below it. -/
theorem witness_LoadImageAllOrNothing_addresses :
    3583 < (List.replicate 3584 (0 : Byte)).length ∧ 0x1FF < memSize ∧ 0x1FF < 0x200 := by
  rw [List.length_replicate]; decide

theorem witness_TickSaturates :
    ticking.params.timerTickEnable = true ∧ State.reset.params.timerTickEnable = false := ⟨rfl, rfl⟩

theorem witness_RenderAckHandsOverFrame :
    ({ State.reset with dirty := true } : State).dirty = true ∧ State.reset.dirty = false := ⟨rfl, rfl⟩

theorem witness_HostMovesWriteOnlyTimerAndDirty_moves :
    HostMove.tick ≠ .step ∧ ticking.hostMove? .tick = some (.nothing, ticking) ∧ HostMove.tick ≠ .renderAck ∧
      HostMove.observe ≠ .step ∧ ticking.hostMove? .observe = some (.view ticking, ticking) ∧ HostMove.observe ≠ .tick :=
  ⟨nofun, rfl, nofun, nofun, rfl, nofun⟩
theorem witness_HostMovesWriteOnlyTimerAndDirty_step :
    ({ State.reset with halted := true } : State).halted = true ∧ State.reset.halted = false ∧
      step State.reset = .next (State.reset.report ⟨0, 0x200⟩).advance := ⟨rfl, rfl, rfl⟩

end Sys2Proof.Tests
end

section
/-! Proofs/ControlFlow.lean: JP and SE (40_control_flow.md, R71 and R73). -/

namespace Sys2Proof.Machine

/-! ## Writing `pc` alone -/

theorem exec_jp (nnn : Addr) (s : State) : exec (.jp nnn) s = .next (s.jump (addrOperand nnn)) := rfl

theorem exec_se (x : Reg) (nn : Byte) (s : State) : exec (.se x nn) s = execSe x nn s := rfl

/-- R52: zero extension keeps the number. -/
@[simp] theorem addrOperand_toNat (nnn : Addr) : (addrOperand nnn).toNat = nnn.toNat :=
  BitVec.toNat_setWidth_of_le (by decide)

theorem State.advance_eq_jump (s : State) : s.advance = s.jump (s.pc + 2) := rfl

theorem State.advanceSkip_eq_jump (s : State) : s.advanceSkip = s.jump (s.pc + 4) := rfl

/-- R9: every write of `pc` has the same frame, so the two advances of R13 have it too. -/
theorem State.jump_writesOnlyPc (s : State) (v : Word) : WritesOnlyPc s (s.jump v) := by
  have hstack : KeepsStack s (s.jump v) := ⟨rfl, fun _ => rfl⟩
  have hdisplay : KeepsDisplay s (s.jump v) := ⟨fun _ => rfl, rfl, rfl⟩
  have hsystem : KeepsSystem s (s.jump v) := ⟨⟨rfl, rfl, rfl⟩, ⟨rfl, rfl⟩, fun _ => rfl, rfl⟩
  exact ⟨fun _ => rfl, rfl, hstack, rfl, hdisplay, hsystem⟩

theorem State.advance_writesOnlyPc (s : State) : WritesOnlyPc s s.advance :=
  s.advance_eq_jump ▸ s.jump_writesOnlyPc _

theorem State.advanceSkip_writesOnlyPc (s : State) : WritesOnlyPc s s.advanceSkip :=
  s.advanceSkip_eq_jump ▸ s.jump_writesOnlyPc _

/-- R13: adding to `pc` as a word is adding modulo 65536. -/
theorem advancesBy_of_pc {n : Nat} {s t : State} (h : t.pc = s.pc + BitVec.ofNat 16 n) : AdvancesBy n s t := by
  rw [AdvancesBy, h, BitVec.toNat_add, BitVec.toNat_ofNat, Nat.add_mod_mod]

theorem State.advance_advancesBy (s : State) : AdvancesBy 2 s s.advance := advancesBy_of_pc s.advance_pc

theorem State.advanceSkip_advancesBy (s : State) : AdvancesBy 4 s s.advanceSkip := advancesBy_of_pc s.advanceSkip_pc

/-! ## The obligations -/

/-- Settles O14: JP is a jump to its zero-extended operand. -/
theorem jumpSetsPc : Obligations.JumpSetsPc := fun nnn s =>
  ⟨s.jump (addrOperand nnn), exec_jp nnn s, by rw [State.jump_pc, addrOperand_toNat], s.jump_writesOnlyPc _⟩

/-- Settles O15, by the two cases of SE: each is one of the two advances, and the other clause's condition is false. -/
theorem skipIfEqualAdvances : Obligations.SkipIfEqualAdvances := by
  intro x nn s
  rw [exec_se]
  rcases execSe_cases x nn s with ⟨heq, hexec⟩ | ⟨hne, hexec⟩
  · exact ⟨s.advanceSkip, hexec, s.advanceSkip_writesOnlyPc, fun _ => s.advanceSkip_advancesBy, fun hne => absurd heq hne⟩
  · exact ⟨s.advance, hexec, s.advance_writesOnlyPc, fun heq => absurd heq hne, fun _ => s.advance_advancesBy⟩

end Sys2Proof.Machine
end

section
/-! Proofs/Immediate.lean: LDI and ADDI (41_immediate.md, R80 and R81), and the frame of a register write with the advance. -/

namespace Sys2Proof.Machine

theorem exec_ldi (x : Reg) (nn : Byte) (s : State) : exec (.ldi x nn) s = .next (s.writeReg x nn).advance := rfl

theorem exec_addi (x : Reg) (nn : Byte) (s : State) :
    exec (.addi x nn) s = .next (s.writeReg x (s.readReg x + nn)).advance := rfl

/-! ## Writing one register and advancing -/

theorem State.writeReg_advance_readReg_same (s : State) (d : Reg) (v : Byte) :
    (s.writeReg d v).advance.readReg d = v := by
  rw [State.advance_readReg, State.readReg_writeReg_same]

/-- R13: a register write leaves `pc` alone, so the advance starts from the old one. -/
theorem State.writeReg_advance_advancesBy (s : State) (d : Reg) (v : Byte) : AdvancesBy 2 s (s.writeReg d v).advance :=
  advancesBy_of_pc (s.writeReg d v).advance_pc

/-- R10: the frame of every instruction whose result is one general register. -/
theorem State.writeReg_advance_writesOnlyRegister (s : State) (d : Reg) (v : Byte) :
    WritesOnlyRegister d s (s.writeReg d v).advance := by
  have hregs : KeepsRegistersBut d s (s.writeReg d v).advance := fun r hr => by
    rw [State.advance_readReg, State.readReg_writeReg_ne s d r v hr]
  have hstack : KeepsStack s (s.writeReg d v).advance := ⟨rfl, fun _ => rfl⟩
  have hdisplay : KeepsDisplay s (s.writeReg d v).advance := ⟨fun _ => rfl, rfl, rfl⟩
  have hsystem : KeepsSystem s (s.writeReg d v).advance := ⟨⟨rfl, rfl, rfl⟩, ⟨rfl, rfl⟩, fun _ => rfl, rfl⟩
  exact ⟨hregs, rfl, hstack, rfl, hdisplay, hsystem⟩

/-! ## The obligations -/

/-- Settles O20: LDI writes its operand to the register and advances. -/
theorem loadImmediateResult : Obligations.LoadImmediateResult := fun x nn s =>
  ⟨_, exec_ldi x nn s, s.writeReg_advance_readReg_same x nn, s.writeReg_advance_advancesBy x nn,
    s.writeReg_advance_writesOnlyRegister x nn⟩

/-- Settles O21: ADDI writes the sum of two bytes, and that sum's number is the natural sum modulo 256. -/
theorem addImmediateResult : Obligations.AddImmediateResult := by
  intro x nn s
  have hsum : ((s.writeReg x (s.readReg x + nn)).advance.readReg x).toNat = ((s.readReg x).toNat + nn.toNat) % 256 := by
    rw [State.writeReg_advance_readReg_same, BitVec.toNat_add]
  exact ⟨_, exec_addi x nn s, hsum, s.writeReg_advance_advancesBy x _, s.writeReg_advance_writesOnlyRegister x _⟩

end Sys2Proof.Machine
end

section
/-! Proofs/RegisterOps.lean: CPY, OR, AND and XOR (42_register_ops.md, R85 to R88). -/

namespace Sys2Proof.Machine

theorem exec_cpy (x y : Reg) (s : State) : exec (.cpy x y) s = .next (s.writeReg x (s.readReg y)).advance := rfl

theorem exec_or (x y : Reg) (s : State) :
    exec (.or x y) s = .next (s.writeReg x (s.readReg x ||| s.readReg y)).advance := rfl

theorem exec_and (x y : Reg) (s : State) :
    exec (.and x y) s = .next (s.writeReg x (s.readReg x &&& s.readReg y)).advance := rfl

theorem exec_xor (x y : Reg) (s : State) :
    exec (.xor x y) s = .next (s.writeReg x (s.readReg x ^^^ s.readReg y)).advance := rfl

/-- What R86, R87 and R88 share: an instruction that writes `v` to `x[X]` and advances leaves the bits of `v` there. -/
theorem exec_bits_of_writeReg_advance {i : Instr} {x : Reg} {v : Byte} {s : State} {bit : Nat → Bool}
    (hexec : exec i s = .next (s.writeReg x v).advance) (hbit : ∀ k, v.getLsbD k = bit k) :
    ∃ t, exec i s = .next t ∧ AdvancesBy 2 s t ∧ WritesOnlyRegister x s t ∧ ∀ k, (t.readReg x).getLsbD k = bit k :=
  ⟨_, hexec, s.writeReg_advance_advancesBy x v, s.writeReg_advance_writesOnlyRegister x v, fun k => by
    rw [State.writeReg_advance_readReg_same, hbit]⟩

/-! ## The obligations -/

/-- Settles O22: CPY writes the old `x[Y]` to `x[X]` and advances. -/
theorem copyResult : Obligations.CopyResult := fun x y s =>
  ⟨_, exec_cpy x y s, s.writeReg_advance_readReg_same x _, s.writeReg_advance_advancesBy x _,
    s.writeReg_advance_writesOnlyRegister x _⟩

/-- Settles O23: each of the three writes a byte whose bits are the operands' bits combined. -/
theorem bitwiseResults : Obligations.BitwiseResults := fun x y s =>
  ⟨exec_bits_of_writeReg_advance (exec_or x y s) fun _ => BitVec.getLsbD_or,
    exec_bits_of_writeReg_advance (exec_and x y s) fun _ => BitVec.getLsbD_and,
    exec_bits_of_writeReg_advance (exec_xor x y s) fun _ => BitVec.getLsbD_xor⟩

end Sys2Proof.Machine
end

section
/-! Proofs/Index.lean: LDIDX (43_index.md, R90), and the frame of an index write with the advance. -/

namespace Sys2Proof.Machine

theorem exec_ldidx (nnn : Addr) (s : State) :
    exec (.ldidx nnn) s = .next (s.writeIndex (addrOperand nnn)).advance := rfl

/-! ## Writing `I` and advancing -/

/-- R13: an index write leaves `pc` alone, so the advance starts from the old one. -/
theorem State.writeIndex_advance_advancesBy (s : State) (v : Word) : AdvancesBy 2 s (s.writeIndex v).advance :=
  advancesBy_of_pc (s.writeIndex v).advance_pc

/-- R10: the frame of every instruction whose result is `I`. After the index write the advance writes `pc` only, and the
index write leaves everything but `I` as it was. -/
theorem State.writeIndex_advance_frame (s : State) (v : Word) :
    KeepsRegisters s (s.writeIndex v).advance ∧ KeepsStack s (s.writeIndex v).advance ∧
      (s.writeIndex v).advance.DT = s.DT ∧ KeepsDisplay s (s.writeIndex v).advance ∧
      KeepsSystem s (s.writeIndex v).advance := by
  obtain ⟨hregs, -, hstack, htimer, hdisplay, hsystem⟩ := (s.writeIndex v).advance_writesOnlyPc
  exact ⟨hregs, hstack, htimer, hdisplay, hsystem⟩

/-! ## The obligation -/

/-- Settles O24: LDIDX writes its zero-extended operand to `I` and advances. -/
theorem loadIndexResult : Obligations.LoadIndexResult := by
  intro nnn s
  have hindex : (s.writeIndex (addrOperand nnn)).advance.I.toNat = nnn.toNat := by
    rw [State.advance_I, State.writeIndex_I, addrOperand_toNat]
  exact ⟨_, exec_ldidx nnn s, hindex, s.writeIndex_advance_advancesBy _, s.writeIndex_advance_frame _⟩

end Sys2Proof.Machine
end

section
/-! Proofs/Timer.lean: RDDT and WRDT (45_timer.md, R105 and R106), and the frame of a timer write with the advance. -/

namespace Sys2Proof.Machine

theorem exec_rddt (x : Reg) (s : State) : exec (.rddt x) s = .next (s.writeReg x s.DT).advance := rfl

theorem exec_wrdt (x : Reg) (s : State) : exec (.wrdt x) s = .next (s.writeTimer (s.readReg x)).advance := rfl

/-! ## Writing `DT` and advancing -/

theorem State.writeTimer_advance_DT (s : State) (v : Byte) : (s.writeTimer v).advance.DT = v := by
  rw [State.advance_DT, State.writeTimer_DT]

/-- R13: a timer write leaves `pc` alone, so the advance starts from the old one. -/
theorem State.writeTimer_advance_advancesBy (s : State) (v : Byte) : AdvancesBy 2 s (s.writeTimer v).advance :=
  advancesBy_of_pc (s.writeTimer v).advance_pc

/-- R10: the frame of an instruction whose result is `DT`. After the timer write the advance writes `pc` only, and the
timer write leaves everything but `DT` as it was. -/
theorem State.writeTimer_advance_frame (s : State) (v : Byte) :
    KeepsRegisters s (s.writeTimer v).advance ∧ (s.writeTimer v).advance.I = s.I ∧
      KeepsStack s (s.writeTimer v).advance ∧ KeepsDisplay s (s.writeTimer v).advance ∧
      KeepsSystem s (s.writeTimer v).advance := by
  obtain ⟨hregs, hindex, hstack, -, hdisplay, hsystem⟩ := (s.writeTimer v).advance_writesOnlyPc
  exact ⟨hregs, hindex, hstack, hdisplay, hsystem⟩

/-! ## The obligation -/

/-- Settles O26: RDDT is a register write of the old `DT`, so it keeps `DT`; WRDT is a timer write of the old `x[X]`. -/
theorem timerResults : Obligations.TimerResults := by
  intro x s
  constructor
  · exact ⟨_, exec_rddt x s, s.writeReg_advance_readReg_same x _, s.writeReg_advance_advancesBy x _,
      s.writeReg_advance_writesOnlyRegister x _⟩
  · exact ⟨_, exec_wrdt x s, s.writeTimer_advance_DT _, s.writeTimer_advance_advancesBy _, s.writeTimer_advance_frame _⟩

end Sys2Proof.Machine
end

section
/-! Proofs/Decode.lean: the rows of the opcode map are disjoint, and the decoder and the encoder are inverse (30_encoding.md,
R53 to R58). -/

namespace Sys2Proof

/-! ## The decoder answers the row that selects (R53) -/

/-- Rows whose fixed bits agree wherever both have one are the same row of R54. -/
theorem opcodeTable_compatible_rows_eq :
    ∀ a ∈ opcodeTable, ∀ b ∈ opcodeTable, a.value &&& b.mask = b.value &&& a.mask → b = a := by decide

/-- Two rows that select one word have fixed bits that agree. -/
theorem OpcodeRow.compatible_of_selects {a b : OpcodeRow} {w : Word} (ha : a.selects w = true) (hb : b.selects w = true) :
    a.value &&& b.mask = b.value &&& a.mask := by
  simp only [OpcodeRow.selects, beq_iff_eq] at ha hb
  rw [← ha, ← hb, BitVec.and_assoc, BitVec.and_assoc, BitVec.and_comm a.mask]

/-- R53: at most one row of R54 selects a word. -/
theorem opcodeTable_selects_unique {w : Word} {row other : OpcodeRow} (hrow : row ∈ opcodeTable) (hw : row.selects w = true)
    (hother : other ∈ opcodeTable) (hw' : other.selects w = true) : other = row :=
  opcodeTable_compatible_rows_eq row hrow other hother (OpcodeRow.compatible_of_selects hw hw')

/-- Among rows of which one selects the word, the decoder answers that one, wherever it stands. -/
theorem decodeRows_of_selects {w : Word} {row : OpcodeRow} {rows : List OpcodeRow} (hrow : row ∈ rows)
    (hw : row.selects w = true) (huniq : ∀ other ∈ rows, other.selects w = true → other = row) :
    decodeRows w rows = .ok (instrOfRow row.mnemonic w) := by
  induction rows with
  | nil => exact absurd hrow List.not_mem_nil
  | cons first rest ih =>
    rw [decodeRows]
    by_cases hfirst : first.selects w = true
    · rw [if_pos hfirst, huniq first List.mem_cons_self hfirst]
    · have hne : row ≠ first := fun h => hfirst (h ▸ hw)
      rw [if_neg hfirst]
      exact ih (List.mem_of_ne_of_mem hne hrow) fun other h => huniq other (List.mem_cons_of_mem _ h)

/-- R53: the decoder answers the instruction of the row that selects the word. -/
theorem decode_of_selects {w : Word} {row : OpcodeRow} (hrow : row ∈ opcodeTable) (hw : row.selects w = true) :
    decode w = .ok (instrOfRow row.mnemonic w) :=
  decodeRows_of_selects hrow hw fun _ => opcodeTable_selects_unique hrow hw

/-- Everything the decoder of some rows can answer. -/
theorem decodeRows_cases (w : Word) (rows : List OpcodeRow) :
    (∃ row ∈ rows, row.selects w = true ∧ decodeRows w rows = .ok (instrOfRow row.mnemonic w)) ∨
    decodeRows w rows = .error (.unrecognized w) := by
  induction rows with
  | nil => exact .inr rfl
  | cons first rest ih =>
    rw [decodeRows]
    by_cases hfirst : first.selects w = true
    · exact .inl ⟨first, List.mem_cons_self, hfirst, if_pos hfirst⟩
    · rw [if_neg hfirst]
      exact ih.imp_left fun ⟨row, hrow, hw⟩ => ⟨row, List.mem_cons_of_mem _ hrow, hw⟩

/-- R58: everything the decoder can answer. -/
theorem decode_cases (w : Word) :
    (∃ row ∈ opcodeTable, row.selects w = true ∧ decode w = .ok (instrOfRow row.mnemonic w)) ∨
    decode w = .error (.unrecognized w) :=
  decodeRows_cases w opcodeTable

/-- R58: the only error of the decoder is the word itself. -/
theorem decode_error {w : Word} {e : DecodeError} (h : decode w = .error e) : e = .unrecognized w := by
  rcases decode_cases w with ⟨row, -, -, hok⟩ | herr
  · rw [hok] at h; cases h
  · rw [herr] at h; cases h; rfl

/-! ## Decoding an encoded instruction -/

/-- R54: the word of every instruction has the fixed bits of its mnemonic's row. -/
theorem encode_matchesItsRow (i : Instr) : Laws.MatchesItsRow.Statement i :=
  match i with
  | .ret => Laws.MatchesItsRow.ret
  | .jp nnn => Laws.MatchesItsRow.jp nnn
  | .call nnn => Laws.MatchesItsRow.call nnn
  | .se x nn => Laws.MatchesItsRow.se x nn
  | .ldi x nn => Laws.MatchesItsRow.ldi x nn
  | .addi x nn => Laws.MatchesItsRow.addi x nn
  | .cpy x y => Laws.MatchesItsRow.cpy x y
  | .or x y => Laws.MatchesItsRow.or x y
  | .and x y => Laws.MatchesItsRow.and x y
  | .xor x y => Laws.MatchesItsRow.xor x y
  | .ldidx nnn => Laws.MatchesItsRow.ldidx nnn
  | .drw x y n => Laws.MatchesItsRow.drw x y n
  | .rddt x => Laws.MatchesItsRow.rddt x
  | .wrdt x => Laws.MatchesItsRow.wrdt x
  | .addidx x => Laws.MatchesItsRow.addidx x

/-- R51, R52: the fields of an instruction's word are its operands. -/
theorem instrOfRow_mnemonic_encode (i : Instr) : instrOfRow i.mnemonic (encode i) = i := by
  cases i <;> simp [Instr.mnemonic, instrOfRow, encode]

/-- R53, R60: decoding undoes encoding. -/
theorem decode_encode (i : Instr) : decode (encode i) = .ok i := by
  obtain ⟨row, hrow, hmnemonic, hbits⟩ := encode_matchesItsRow i
  rw [decode_of_selects hrow (beq_iff_eq.mpr hbits), hmnemonic, instrOfRow_mnemonic_encode]

/-- R33: a word is its two bytes. -/
theorem wordOfBytes_of_word (w : Word) : wordOfBytes (w.extractLsb' 8 8) (w.extractLsb' 0 8) = w :=
  (join_fields w 0 8 8 8 rfl).trans BitVec.extractLsb'_eq_self

/-- R33: the bytes of a word decode as the word does. -/
theorem decodeBytes_bytesOfWord {w : Word} {i : Instr} (h : decode w = .ok i) (rest : List Byte) :
    decodeBytes (bytesOfWord w ++ rest) = .ok (i, rest) := by
  simp only [bytesOfWord, List.cons_append, List.nil_append, decodeBytes, wordOfBytes_of_word, h]

/-! ## Encoding a decoded word -/

theorem formatNNN_of_class {w : Word} {c : BitVec 4} (hc : fieldClass w = c) : formatNNN c (fieldNNN w) = w :=
  hc ▸ formatNNN_fields w

theorem formatXNN_of_class {w : Word} {c : BitVec 4} (hc : fieldClass w = c) : formatXNN c (fieldX w) (fieldNN w) = w :=
  hc ▸ formatXNN_fields w

theorem formatXNN_of_class_NN {w : Word} {c : BitVec 4} {nn : Byte} (h : fieldClass w = c ∧ fieldNN w = nn) :
    formatXNN c (fieldX w) nn = w :=
  h.2 ▸ formatXNN_of_class h.1

theorem formatXYN_of_class {w : Word} {c : BitVec 4} (hc : fieldClass w = c) :
    formatXYN c (fieldX w) (fieldY w) (BitVec.ofFin (w := 4) (fieldN w)) = w :=
  hc ▸ formatXYN_fields w

theorem formatXYN_of_class_N {w : Word} {c : BitVec 4} {n : RowCount} (h : fieldClass w = c ∧ fieldN w = n) :
    formatXYN c (fieldX w) (fieldY w) (BitVec.ofFin (w := 4) n) = w :=
  h.2 ▸ formatXYN_of_class h.1

/-- R54: a word a row selects is the encoding of the row's instruction: the row's fixed bits and the fields are all its bits. -/
theorem encode_instrOfRow {w : Word} {row : OpcodeRow} (hrow : row ∈ opcodeTable) (hw : row.selects w = true) :
    encode (instrOfRow row.mnemonic w) = w := by
  rw [opcodeTable_by_format] at hrow
  simp only [List.mem_cons, List.not_mem_nil, or_false] at hrow
  rcases hrow with rfl | rfl | rfl | rfl | rfl | rfl | rfl | rfl | rfl | rfl | rfl | rfl | rfl | rfl | rfl <;>
    simp only [selects_word, selects_class, selects_class_NN, selects_class_N, decide_eq_true_eq] at hw
  · exact hw.symm
  · exact formatNNN_of_class hw
  · exact formatNNN_of_class hw
  · exact formatXNN_of_class hw
  · exact formatXNN_of_class hw
  · exact formatXNN_of_class hw
  · exact formatXYN_of_class_N hw
  · exact formatXYN_of_class_N hw
  · exact formatXYN_of_class_N hw
  · exact formatXYN_of_class_N hw
  · exact formatNNN_of_class hw
  · exact formatXYN_of_class hw
  · exact formatXNN_of_class_NN hw
  · exact formatXNN_of_class_NN hw
  · exact formatXNN_of_class_NN hw

/-- R54: encoding undoes decoding. -/
theorem encode_of_decode {w : Word} {i : Instr} (h : decode w = .ok i) : encode i = w := by
  rcases decode_cases w with ⟨row, hrow, hw, hok⟩ | herr
  · rw [hok] at h
    cases h
    exact encode_instrOfRow hrow hw
  · rw [herr] at h; cases h

/-! ## The unrecognized words (R55) -/

/-- R55: a word is unrecognized exactly when no row selects it. -/
theorem decode_unrecognized_iff (w : Word) :
    decode w = .error (.unrecognized w) ↔ ∀ row ∈ opcodeTable, row.selects w = false := by
  constructor
  · intro h row hrow
    by_contra hw
    rw [decode_of_selects hrow (by simpa using hw)] at h
    cases h
  · intro h
    rcases decode_cases w with ⟨row, hrow, hw, -⟩ | herr
    · rw [h row hrow] at hw; cases hw
    · exact herr

/-- R55: class 8 has a row for the lowest nibbles 0 to 3. -/
theorem rowCount_four_le_iff : ∀ n : RowCount, 4 ≤ n.val ↔ n ≠ 0 ∧ n ≠ 1 ∧ n ≠ 2 ∧ n ≠ 3 := by decide

/-- R52: a field of 4 bits has 16 values. -/
theorem nibble_cases : ∀ c : BitVec 4,
    c = 0x0 ∨ c = 0x1 ∨ c = 0x2 ∨ c = 0x3 ∨ c = 0x4 ∨ c = 0x5 ∨ c = 0x6 ∨ c = 0x7 ∨ c = 0x8 ∨ c = 0x9 ∨ c = 0xA ∨ c = 0xB ∨
      c = 0xC ∨ c = 0xD ∨ c = 0xE ∨ c = 0xF := by decide

/-- R56: a word of another class than 0 is not RET's. -/
theorem ne_ret_word_of_class {w : Word} (h : fieldClass w ≠ 0x0) : w ≠ 0x00EE := by
  rintro rfl
  exact h rfl

/-- R55: the rows class by class. Class 0 has the word of RET alone; class 8 asks for the lowest nibble and class F for the
lowest byte; every other class has a row for all its words or for none. -/
theorem decode_unrecognized_iff_by_class (w : Word) :
    decode w = .error (.unrecognized w) ↔
      (fieldClass w = 0x0 ∧ w ≠ 0x00EE) ∨ fieldClass w = 0x4 ∨ fieldClass w = 0x5 ∨
      (fieldClass w = 0x8 ∧ 4 ≤ (fieldN w).val) ∨ fieldClass w = 0x9 ∨ fieldClass w = 0xB ∨ fieldClass w = 0xC ∨
      fieldClass w = 0xE ∨ (fieldClass w = 0xF ∧ fieldNN w ≠ 0x07 ∧ fieldNN w ≠ 0x15 ∧ fieldNN w ≠ 0x1E) := by
  rw [decode_unrecognized_iff, opcodeTable_by_format]
  simp only [List.forall_mem_cons, selects_word, selects_class, selects_class_NN, selects_class_N,
    decide_eq_false_iff_not, rowCount_four_le_iff]
  have hret : fieldClass w ≠ 0x0 → w ≠ 0x00EE := ne_ret_word_of_class
  rcases nibble_cases (fieldClass w) with
    hc | hc | hc | hc | hc | hc | hc | hc | hc | hc | hc | hc | hc | hc | hc | hc <;> simp_all

/-! ## The obligations -/

/-- Settles O4: the fixed bits of two rows that select one word agree, and no two rows of R54 are like that. -/
theorem opcodeRowsDisjoint : Obligations.OpcodeRowsDisjoint := fun _ _ hrow hw =>
  ⟨fun _ => opcodeTable_selects_unique hrow hw, decode_of_selects hrow hw⟩

/-- Settles O6: a word is selected by a row or by none. -/
theorem decoderTotal : Obligations.DecoderTotal := fun w =>
  (decode_cases w).imp_left fun ⟨_, _, _, hok⟩ => ⟨_, hok⟩

/-- Settles O3: by the row that selects the word. -/
theorem decodedWordIsItsEncoding : Obligations.DecodedWordIsItsEncoding := fun _ _ => encode_of_decode

/-- Settles O5; that only 0x00EE is RET is the round trip of RET. -/
theorem unrecognizedWordsByClass : Obligations.UnrecognizedWordsByClass :=
  ⟨decode_unrecognized_iff_by_class, fun _ =>
    ⟨fun hdecode => (encode_of_decode hdecode).symm, fun hword => hword ▸ decode_encode .ret⟩⟩

/-- Settles O1, word by word. -/
theorem sampleWordsDecode : Obligations.SampleWordsDecode := by
  unfold Obligations.SampleWordsDecode
  decide

end Sys2Proof
end

section
/-! Proofs/WellFormed.lean: written lines and the instructions they stand for (30_encoding.md section 6, R60). -/

namespace Sys2Proof

/-! ## Operands in range -/

theorem regOf_eq_some {x : Nat} {r : Reg} : regOf x = some r ↔ x = r.val := by
  rw [regOf]
  constructor
  · intro h
    split at h
    · cases h; rfl
    · cases h
  · rintro rfl
    rw [dif_pos r.isLt]

theorem rowCountOf_eq_some {x : Nat} {n : RowCount} : rowCountOf x = some n ↔ x = n.val := by
  rw [rowCountOf]
  constructor
  · intro h
    split at h
    · cases h; rfl
    · cases h
  · rintro rfl
    rw [dif_pos n.isLt]

theorem byteOf_eq_some {x : Nat} {b : Byte} : byteOf x = some b ↔ x = b.toNat := by
  rw [byteOf]
  constructor
  · intro h
    split at h
    · cases h; rw [BitVec.toNat_ofNat]; omega
    · cases h
  · rintro rfl
    rw [if_pos (by omega), BitVec.ofNat_toNat, BitVec.setWidth_eq]

theorem addrOf_eq_some {x : Nat} {a : Addr} : addrOf x = some a ↔ x = a.toNat := by
  rw [addrOf]
  constructor
  · intro h
    split at h
    · cases h; rw [BitVec.toNat_ofNat]; omega
    · cases h
  · rintro rfl
    rw [if_pos (by omega), BitVec.ofNat_toNat, BitVec.setWidth_eq]

/-- R60: the operand readers give every operand in range back. -/
@[simp] theorem regOf_val (r : Reg) : regOf r.val = some r := regOf_eq_some.mpr rfl
@[simp] theorem rowCountOf_val (n : RowCount) : rowCountOf n.val = some n := rowCountOf_eq_some.mpr rfl
@[simp] theorem byteOf_toNat (b : Byte) : byteOf b.toNat = some b := byteOf_eq_some.mpr rfl
@[simp] theorem addrOf_toNat (a : Addr) : addrOf a.toNat = some a := addrOf_eq_some.mpr rfl

/-- R60: an operand in range is an operand of the instruction's own type. -/
theorem isRegIndex_iff {x : Nat} : isRegIndex x = true ↔ ∃ r : Reg, x = r.val := by
  rw [isRegIndex, decide_eq_true_eq]
  exact ⟨fun h => ⟨⟨x, h⟩, rfl⟩, fun ⟨r, hr⟩ => hr ▸ r.isLt⟩

theorem isRowCount_iff {x : Nat} : isRowCount x = true ↔ ∃ n : RowCount, x = n.val := by
  rw [isRowCount, decide_eq_true_eq]
  exact ⟨fun h => ⟨⟨x, Nat.lt_succ_of_le h⟩, rfl⟩, fun ⟨n, hn⟩ => hn ▸ Nat.le_of_lt_succ n.isLt⟩

theorem isByteImm_iff {x : Nat} : isByteImm x = true ↔ ∃ b : Byte, x = b.toNat := by
  rw [isByteImm, decide_eq_true_eq]
  exact ⟨fun h => ⟨⟨x, Nat.lt_succ_of_le h⟩, rfl⟩, fun ⟨b, hb⟩ => hb ▸ Nat.le_of_lt_succ b.isLt⟩

theorem isAddrImm_iff {x : Nat} : isAddrImm x = true ↔ ∃ a : Addr, x = a.toNat := by
  rw [isAddrImm, decide_eq_true_eq]
  exact ⟨fun h => ⟨⟨x, Nat.lt_succ_of_le h⟩, rfl⟩, fun ⟨a, ha⟩ => ha ▸ Nat.le_of_lt_succ a.isLt⟩

/-! ## Lines -/

/-- R60: every instruction's own line stands for it. -/
theorem toInstr?_toAsm (i : Instr) : i.toAsm.toInstr? = some i := by
  cases i <;> simp [Instr.toAsm, AsmLine.toInstr?]

/-- D20: a line stands for no instruction but the one it is the line of, so nothing is truncated. -/
theorem eq_toAsm_of_toInstr? {l : AsmLine} {i : Instr} (h : l.toInstr? = some i) : l = i.toAsm := by
  obtain ⟨m, ops⟩ := l
  unfold AsmLine.toInstr? at h
  split at h <;>
    simp only [bind, Option.bind_eq_some_iff, regOf_eq_some, byteOf_eq_some, addrOf_eq_some, rowCountOf_eq_some,
      Option.some.injEq, reduceCtorEq] at h <;>
    rename_i hm hops <;> cases hm <;> cases hops
  case h_1 => subst h; rfl
  case h_2 | h_3 | h_11 | h_13 | h_14 | h_15 =>
    obtain ⟨_, rfl, rfl⟩ := h
    rfl
  case h_4 | h_5 | h_6 | h_7 | h_8 | h_9 | h_10 =>
    obtain ⟨_, rfl, _, rfl, rfl⟩ := h
    rfl
  case h_12 =>
    obtain ⟨_, rfl, _, rfl, _, rfl, rfl⟩ := h
    rfl

/-- R60: a line stands for an instruction exactly when it is that instruction's own line. -/
theorem toInstr?_eq_some_iff {l : AsmLine} {i : Instr} : l.toInstr? = some i ↔ l = i.toAsm :=
  ⟨eq_toAsm_of_toInstr?, fun h => h ▸ toInstr?_toAsm i⟩

/-- R60: the line of every instruction is well-formed. -/
theorem Instr.wellFormed_eq_true (i : Instr) : i.wellFormed = true := by
  cases i <;>
    simp [Instr.wellFormed, Instr.toAsm, AsmLine.wellFormed, isRegIndex_iff, isByteImm_iff, isAddrImm_iff, isRowCount_iff]

/-- R60: a well-formed line is some instruction's line: each operand in range is an operand of its type. -/
theorem exists_toAsm_of_wellFormed {l : AsmLine} (h : l.wellFormed = true) : ∃ i : Instr, l = i.toAsm := by
  obtain ⟨m, ops⟩ := l
  unfold AsmLine.wellFormed at h
  split at h <;>
    simp only [Bool.and_eq_true, isRegIndex_iff, isByteImm_iff, isAddrImm_iff, isRowCount_iff, reduceCtorEq] at h <;>
    rename_i hm hops <;> cases hm <;> cases hops
  case h_1 => exact ⟨.ret, rfl⟩
  case h_2 => obtain ⟨nnn, rfl⟩ := h; exact ⟨.jp nnn, rfl⟩
  case h_3 => obtain ⟨nnn, rfl⟩ := h; exact ⟨.call nnn, rfl⟩
  case h_4 => obtain ⟨nnn, rfl⟩ := h; exact ⟨.ldidx nnn, rfl⟩
  case h_5 => obtain ⟨⟨x, rfl⟩, nn, rfl⟩ := h; exact ⟨.se x nn, rfl⟩
  case h_6 => obtain ⟨⟨x, rfl⟩, nn, rfl⟩ := h; exact ⟨.ldi x nn, rfl⟩
  case h_7 => obtain ⟨⟨x, rfl⟩, nn, rfl⟩ := h; exact ⟨.addi x nn, rfl⟩
  case h_8 => obtain ⟨⟨x, rfl⟩, y, rfl⟩ := h; exact ⟨.cpy x y, rfl⟩
  case h_9 => obtain ⟨⟨x, rfl⟩, y, rfl⟩ := h; exact ⟨.or x y, rfl⟩
  case h_10 => obtain ⟨⟨x, rfl⟩, y, rfl⟩ := h; exact ⟨.and x y, rfl⟩
  case h_11 => obtain ⟨⟨x, rfl⟩, y, rfl⟩ := h; exact ⟨.xor x y, rfl⟩
  case h_12 => obtain ⟨⟨⟨x, rfl⟩, y, rfl⟩, n, rfl⟩ := h; exact ⟨.drw x y n, rfl⟩
  case h_13 => obtain ⟨x, rfl⟩ := h; exact ⟨.rddt x, rfl⟩
  case h_14 => obtain ⟨x, rfl⟩ := h; exact ⟨.wrdt x, rfl⟩
  case h_15 => obtain ⟨x, rfl⟩ := h; exact ⟨.addidx x, rfl⟩

/-! ## The obligations -/

/-- Settles O7: both clauses say that the line is some instruction's own. -/
theorem writtenLinesAndInstructions : Obligations.WrittenLinesAndInstructions := by
  refine fun l => ⟨⟨fun h => ?_, ?_⟩, fun _ => toInstr?_eq_some_iff⟩
  · obtain ⟨i, rfl⟩ := exists_toAsm_of_wellFormed h
    exact ⟨i, toInstr?_toAsm i⟩
  · rintro ⟨i, hi⟩
    rw [toInstr?_eq_some_iff.mp hi]
    exact i.wellFormed_eq_true

/-- Settles O2: the word of an instruction is selected by its mnemonic's row, and its fields are the operands. -/
theorem decodeOfEncodeIsTheInstruction : Obligations.DecodeOfEncodeIsTheInstruction := fun i rest =>
  ⟨i.wellFormed_eq_true, decode_encode i, decodeBytes_bytesOfWord (decode_encode i) rest⟩

end Sys2Proof
end

section
/-! Proofs/Effects.lean: everything an instruction and a step can do, as one relation each (R50, R121). The rules about every
instruction and every step are read off these two relations. -/

namespace Sys2Proof.Machine

/-! ## Fault entry -/

/-- R121: fault entry is the state after a fault with the fault's code and values. -/
theorem State.raise_eq_faulted (s : State) (f : Fault) : s.raise f = s.faulted f.code f.info.1 f.info.2 := rfl

/-! ## Instructions -/

/-- What an instruction can do to a state, by what it writes. -/
inductive Effect (s : State) : Instr → State → Prop
  /-- R121: any instruction may raise a fault. -/
  | fault (i : Instr) (f : Fault) : Effect s i (s.raise f)
  /-- R70. -/
  | ret (k : Fin stackDepth) (used : s.sp.val = k.val + 1) :
      Effect s .ret { s with sp := ⟨k.val, Nat.lt_succ_of_lt k.isLt⟩, pc := s.stack[k.val] }
  /-- R71. -/
  | jp (nnn : Addr) : Effect s (.jp nnn) (s.jump (addrOperand nnn))
  /-- R72. -/
  | call (nnn : Addr) (room : s.sp.val < stackDepth) :
      Effect s (.call nnn) { s with
        stack := s.stack.set s.sp.val (s.pc + 2), sp := ⟨s.sp.val + 1, Nat.succ_lt_succ room⟩, pc := addrOperand nnn }
  /-- R73, the condition does not hold. -/
  | seAdvance (x : Reg) (nn : Byte) : Effect s (.se x nn) s.advance
  /-- R73, the condition holds. -/
  | seSkip (x : Reg) (nn : Byte) : Effect s (.se x nn) s.advanceSkip
  /-- R10: the instruction's result is its destination register. -/
  | register (i : Instr) (d : Reg) (v : Byte) (hd : destination i = some d) : Effect s i (s.writeReg d v).advance
  /-- R90. -/
  | ldidx (nnn : Addr) (v : Word) : Effect s (.ldidx nnn) (s.writeIndex v).advance
  /-- R91. -/
  | addidx (x : Reg) (v : Word) : Effect s (.addidx x) (s.writeIndex v).advance
  /-- R106. -/
  | wrdt (x : Reg) (v : Byte) : Effect s (.wrdt x) (s.writeTimer v).advance
  /-- R95: a DRW that draws has no pixel out of range under `fault`. -/
  | drw (x y : Reg) (n : RowCount) (ps : List Pixel) (inside : s.params.drawOob = .fault → oobPixels ps = []) :
      Effect s (.drw x y n) (s.drawSprite ps)

/-- Every instruction answers a next state, and does nothing but what `Effect` says. -/
theorem exec_effect (i : Instr) (s : State) : ∃ t, exec i s = .next t ∧ Effect s i t := by
  cases i with
  | ret =>
    rcases execRet_cases s with ⟨_, hexec⟩ | ⟨k, used, hexec⟩
    · exact ⟨_, hexec, .fault _ _⟩
    · exact ⟨_, hexec, .ret k used⟩
  | jp nnn => exact ⟨_, exec_jp nnn s, .jp nnn⟩
  | call nnn =>
    rcases execCall_cases nnn s with ⟨_, hexec⟩ | ⟨room, hexec⟩
    · exact ⟨_, hexec, .fault _ _⟩
    · exact ⟨_, hexec, .call nnn room⟩
  | se x nn =>
    rcases execSe_cases x nn s with ⟨_, hexec⟩ | ⟨_, hexec⟩
    · exact ⟨_, hexec, .seSkip x nn⟩
    · exact ⟨_, hexec, .seAdvance x nn⟩
  | ldi x nn => exact ⟨_, exec_ldi x nn s, .register _ x _ rfl⟩
  | addi x nn => exact ⟨_, exec_addi x nn s, .register _ x _ rfl⟩
  | cpy x y => exact ⟨_, exec_cpy x y s, .register _ x _ rfl⟩
  | or x y => exact ⟨_, exec_or x y s, .register _ x _ rfl⟩
  | and x y => exact ⟨_, exec_and x y s, .register _ x _ rfl⟩
  | xor x y => exact ⟨_, exec_xor x y s, .register _ x _ rfl⟩
  | ldidx nnn => exact ⟨_, exec_ldidx nnn s, .ldidx nnn _⟩
  | drw x y n =>
    rcases execDrw_cases x y n s with ⟨_, _, hexec⟩ | ⟨_, ⟨_, _, _, hexec⟩ | ⟨inside, hexec⟩⟩
    · exact ⟨_, hexec, .fault _ _⟩
    · exact ⟨_, hexec, .fault _ _⟩
    · exact ⟨_, hexec, .drw x y n _ inside⟩
  | rddt x => exact ⟨_, exec_rddt x s, .register _ x _ rfl⟩
  | wrdt x => exact ⟨_, exec_wrdt x s, .wrdt x _⟩
  | addidx x => exact ⟨_, rfl, .addidx x _⟩

theorem effect_of_exec {i : Instr} {s t : State} (h : exec i s = .next t) : Effect s i t := by
  obtain ⟨u, hexec, heffect⟩ := exec_effect i s
  rw [hexec] at h
  cases h
  exact heffect

/-! ## Steps -/

/-- What a step can do to a state (R50). -/
inductive StepEffect (s : State) : State → Prop
  /-- R121. -/
  | halted (hh : s.halted = true) : StepEffect s s
  /-- R123. -/
  | fetchFault (hh : s.halted = false) : StepEffect s (s.raise (.fetchOutOfRange s.pc))
  /-- R50: the fetched word is an instruction. -/
  | instruction (w : Word) (i : Instr) (t : State) (hh : s.halted = false) (hpc : s.pc.toNat + 1 < memSize)
      (hfetch : fetchWord s = some w) (hdecode : decode w = .ok i) (hexec : exec i s = .next t) : StepEffect s t
  /-- R111. -/
  | skip (w : Word) (hh : s.halted = false) (hpc : s.pc.toNat + 1 < memSize) (hfetch : fetchWord s = some w)
      (hdecode : decode w = .error (.unrecognized w)) (hpolicy : s.params.unknownOpcode = .skip) :
      StepEffect s (s.report ⟨w, s.pc⟩).advance
  /-- R112. -/
  | illegal (w : Word) (hh : s.halted = false) (hfetch : fetchWord s = some w)
      (hdecode : decode w = .error (.unrecognized w)) (hpolicy : s.params.unknownOpcode = .fault) :
      StepEffect s (s.raise (.illegalInstruction s.pc w))

/-- Every step answers a next state, and does nothing but what `StepEffect` says. -/
theorem step_effect (s : State) : ∃ t, step s = .next t ∧ StepEffect s t := by
  rcases step_cases s with ⟨hh, hstep⟩ | ⟨hh, _, hstep⟩ | ⟨w, i, hh, hpc, hfetch, hdecode, hstep⟩ |
    ⟨w, e, hh, hpc, hfetch, hdecode, hstep⟩
  · exact ⟨s, hstep, .halted hh⟩
  · exact ⟨_, hstep, .fetchFault hh⟩
  · obtain ⟨t, hexec, -⟩ := exec_effect i s
    exact ⟨t, hstep.trans hexec, .instruction w i t hh hpc hfetch hdecode hexec⟩
  · obtain rfl := decode_error hdecode
    rcases execUnrecognized_cases w s with ⟨hpolicy, hexec⟩ | ⟨hpolicy, hexec⟩
    · exact ⟨_, hstep.trans hexec, .skip w hh hpc hfetch hdecode hpolicy⟩
    · exact ⟨_, hstep.trans hexec, .illegal w hh hfetch hdecode hpolicy⟩

theorem stepEffect_of_step {s t : State} (h : step s = .next t) : StepEffect s t := by
  obtain ⟨u, hstep, heffect⟩ := step_effect s
  rw [hstep] at h
  cases h
  exact heffect

/-! ## Host moves and transitions (R42, R133) -/

/-- R139: everything a move of the host can do. -/
theorem hostMove?_cases {m : HostMove} {reply : HostReply} {s t : State} (h : s.hostMove? m = some (reply, t)) :
    (m = .step ∧ step s = .next t) ∨ (m = .tick ∧ t = { s with DT := tickTimer s.DT }) ∨
    (m = .renderAck ∧ t = { s with dirty := false }) ∨ ((m = .observe ∨ m = .stop) ∧ t = s) := by
  cases m with
  | step =>
    obtain ⟨u, hstep, -⟩ := step_effect s
    simp only [State.hostMove?, hstep] at h
    split at h
    · cases h
    · cases h; exact .inl ⟨rfl, hstep⟩
  | tick =>
    simp only [State.hostMove?, State.tick?] at h
    cases he : s.params.timerTickEnable <;> simp only [he] at h <;> cases h
    exact .inr (.inl ⟨rfl, rfl⟩)
  | renderAck =>
    simp only [State.hostMove?, State.renderAck?] at h
    cases hd : s.dirty <;> simp only [hd] at h <;> cases h
    exact .inr (.inr (.inl ⟨rfl, rfl⟩))
  | observe => cases h; exact .inr (.inr (.inr ⟨.inl rfl, rfl⟩))
  | stop => cases h; exact .inr (.inr (.inr ⟨.inr rfl, rfl⟩))

/-- R42, R139: a transition is a step, or it writes nothing but `DT` and `dirty`. -/
theorem Transition.step_or_host {s t : State} (h : Transition s t) :
    StepEffect s t ∨ ∃ (dt : Byte) (dirty : Bool), t = { s with DT := dt, dirty := dirty } := by
  rcases h with hstep | ⟨m, reply, hmove⟩
  · exact .inl (stepEffect_of_step hstep)
  · rcases hostMove?_cases hmove with ⟨-, hstep⟩ | ⟨-, rfl⟩ | ⟨-, rfl⟩ | ⟨-, rfl⟩
    · exact .inl (stepEffect_of_step hstep)
    · exact .inr ⟨_, s.dirty, rfl⟩
    · exact .inr ⟨s.DT, false, rfl⟩
    · exact .inr ⟨t.DT, t.dirty, rfl⟩

/-! ## The obligation -/

/-- Settles O36: by the two relations' own existence lemmas. -/
theorem stepAlwaysAnswersNext : Obligations.StepAlwaysAnswersNext := fun s =>
  ⟨(step_effect s).imp fun _ h => h.1, fun i => (exec_effect i s).imp fun _ h => h.1⟩

end Sys2Proof.Machine
end

section
/-! Proofs/Cycle.lean: the fetch, the instruction cycle and the two rules for unrecognized words (R33, R35, R50, R111, R112). -/

namespace Sys2Proof.Machine

variable {s : State} {w : Word}

/-! ## The fetch -/

theorem Memory.read?_of_lt (m : Memory) {a : Nat} (h : a < memSize) : m.read? a = some (Memory.lookup a m) := if_pos h

/-- R33: two bytes at `pc` and `pc + 1` are the fetched word. -/
theorem fetchWord_of_read? {hi lo : Byte} (hhi : s.mem.read? s.pc.toNat = some hi)
    (hlo : s.mem.read? (s.pc.toNat + 1) = some lo) : fetchWord s = some (hi ++ lo) := by
  simp only [fetchWord, hhi, hlo, wordOfBytes]

/-! ## Unrecognized words -/

/-- R50: a fetched word that is unrecognized takes the rule for unrecognized words. -/
theorem step_unrecognized {e : DecodeError} (hh : s.halted = false) (hfetch : fetchWord s = some w)
    (hdecode : decode w = .error e) : step s = execUnrecognized w s :=
  (step_fetch_some hh hfetch).trans (runWord_error s hdecode)

/-- R111. -/
theorem execUnrecognized_skip (w : Word) (h : s.params.unknownOpcode = .skip) :
    execUnrecognized w s = .next (s.report ⟨w, s.pc⟩).advance := by
  rw [execUnrecognized, h]; rfl

/-- R112. -/
theorem execUnrecognized_fault (w : Word) (h : s.params.unknownOpcode = .fault) :
    execUnrecognized w s = .next (s.raise (.illegalInstruction s.pc w)) := by
  rw [execUnrecognized, h]; rfl

/-! ## The obligations -/

/-- Settles O9: both addresses are in the address space. -/
theorem fetchIsBigEndian : Obligations.FetchIsBigEndian := fun s h =>
  have hhi := s.mem.read?_of_lt (Nat.lt_of_succ_lt h)
  have hlo := s.mem.read?_of_lt h
  ⟨_, _, hhi, hlo, fetchWord_of_read? hhi hlo⟩

/-- Settles O10: without a word to fetch, the step is the fetch fault. -/
theorem fetchBoundsChecked : Obligations.FetchBoundsChecked := fun s h =>
  ⟨fetchWord_eq_none s h, fun hh => step_fetch_none hh (fetchWord_eq_none s h)⟩

/-- Settles O8: the fetch of the third branch succeeds because both bytes can be read. -/
theorem stepFollowsInstructionCycle : Obligations.StepFollowsInstructionCycle := by
  refine fun s => ⟨step_halted, fun hh hpc => (fetchBoundsChecked s hpc).2 hh, fun hh hi lo hhi hlo => ?_⟩
  have hfetch : fetchWord s = some (hi ++ lo) := fetchWord_of_read? hhi hlo
  exact ⟨fun _ hdecode => (step_fetch_some hh hfetch).trans (runWord_ok s hdecode),
    fun _ hdecode => step_unrecognized hh hfetch hdecode⟩

/-- Settles O12: the step is the report and the advance, and both leave everything the statement lists as it was. -/
theorem unrecognizedWordSkipped : Obligations.UnrecognizedWordSkipped := by
  intro s w hh hfetch hdecode hpolicy
  have hstep : step s = .next (s.report ⟨w, s.pc⟩).advance :=
    (step_unrecognized hh hfetch hdecode).trans (execUnrecognized_skip w hpolicy)
  obtain ⟨hregs, hindex, hstack, htimer, hdisplay, ⟨hstatus, -, hmem, hparams⟩⟩ :=
    (s.report ⟨w, s.pc⟩).advance_writesOnlyPc
  exact ⟨_, hstep, rfl, rfl, advancesBy_of_pc rfl, hregs, hindex, hstack, htimer, hdisplay, hstatus, hmem, hparams⟩

/-- Settles O13: the step is the rule for unrecognized words, and that is the fault. -/
theorem unrecognizedWordFaults : Obligations.UnrecognizedWordFaults := fun _ w hh hfetch hdecode hpolicy =>
  (step_unrecognized hh hfetch hdecode).trans (execUnrecognized_fault w hpolicy)

end Sys2Proof.Machine
end

section
/-! Proofs/Frames.lean: what no instruction, no step and no host move writes (10_state.md, R121), read off `Effect` and
`StepEffect`. -/

namespace Sys2Proof.Machine

/-! ## Draw frame -/

section
variable (s : State) (ps : List Pixel)

@[simp] theorem State.drawSprite_I : (s.drawSprite ps).I = s.I := rfl
@[simp] theorem State.drawSprite_pc : (s.drawSprite ps).pc = s.pc + 2 := rfl
@[simp] theorem State.drawSprite_stack : (s.drawSprite ps).stack = s.stack := rfl
@[simp] theorem State.drawSprite_sp : (s.drawSprite ps).sp = s.sp := rfl
@[simp] theorem State.drawSprite_DT : (s.drawSprite ps).DT = s.DT := rfl
@[simp] theorem State.drawSprite_dirty : (s.drawSprite ps).dirty = true := rfl
@[simp] theorem State.drawSprite_halted : (s.drawSprite ps).halted = s.halted := rfl
@[simp] theorem State.drawSprite_mem : (s.drawSprite ps).mem = s.mem := rfl
@[simp] theorem State.drawSprite_params : (s.drawSprite ps).params = s.params := rfl
@[simp] theorem State.drawSprite_drawOobSeen :
    (s.drawSprite ps).drawOobSeen = (s.drawOobSeen || !(oobPixels ps).isEmpty) := rfl
@[simp] theorem State.drawSprite_fb :
    (s.drawSprite ps).fb = (Framebuffer.blit (drawTargets s.params.drawOob ps) (s.fb, false)).1 := rfl

/-- R97: `x[15]` holds the collision result. -/
theorem State.drawSprite_readReg_vf : (s.drawSprite ps).readReg Reg.vf =
    collisionFlag (Framebuffer.blit (drawTargets s.params.drawOob ps) (s.fb, false)).2 :=
  s.readReg_writeReg_same Reg.vf _

theorem State.drawSprite_readReg_ne {r : Reg} (h : r ≠ Reg.vf) : (s.drawSprite ps).readReg r = s.readReg r :=
  s.readReg_writeReg_ne Reg.vf r _ h

end

/-! ## What an instruction leaves unchanged -/

section
variable {i : Instr} {s t : State}

/-- R10: the one general register an instruction may write is its destination. -/
theorem Effect.readReg_eq {r : Reg} (h : Effect s i t) (hr : destination i ≠ some r) : t.readReg r = s.readReg r := by
  cases h with
  | register _ d v hd =>
    have hne : r ≠ d := fun heq => hr (heq ▸ hd)
    rw [State.advance_readReg, State.readReg_writeReg_ne s d r v hne]
  | drw x y n ps =>
    have hne : r ≠ Reg.vf := fun heq => hr (heq ▸ rfl)
    exact s.drawSprite_readReg_ne ps hne
  | _ => rfl

/-- R74: an instruction that completes and is none of the four of 40_control_flow.md advances by 2. -/
theorem Effect.advancesBy (h : Effect s i t) (running : t.halted = false) (hret : i ≠ .ret) (hjp : ∀ nnn, i ≠ .jp nnn)
    (hcall : ∀ nnn, i ≠ .call nnn) (hse : ∀ x nn, i ≠ .se x nn) : AdvancesBy 2 s t := by
  cases h with
  | fault => cases running
  | ret => exact absurd rfl hret
  | jp nnn => exact absurd rfl (hjp nnn)
  | call nnn => exact absurd rfl (hcall nnn)
  | seAdvance x nn => exact absurd rfl (hse x nn)
  | seSkip x nn => exact absurd rfl (hse x nn)
  | register _ d v => exact s.writeReg_advance_advancesBy d v
  | ldidx _ v => exact s.writeIndex_advance_advancesBy v
  | addidx _ v => exact s.writeIndex_advance_advancesBy v
  | wrdt _ v => exact s.writeTimer_advance_advancesBy v
  | drw _ _ _ ps => exact advancesBy_of_pc (s.drawSprite_pc ps)

/-- R16: only CALL writes a stack entry. -/
theorem Effect.stack_eq (h : Effect s i t) (hcall : ∀ nnn, i ≠ .call nnn) : t.stack = s.stack := by
  cases h with
  | call nnn => exact absurd rfl (hcall nnn)
  | _ => rfl

/-- R17: only CALL and RET move `sp`. -/
theorem Effect.sp_eq (h : Effect s i t) (hcall : ∀ nnn, i ≠ .call nnn) (hret : i ≠ .ret) : t.sp = s.sp := by
  cases h with
  | call nnn => exact absurd rfl (hcall nnn)
  | ret => exact absurd rfl hret
  | _ => rfl

/-- R15: only LDIDX and ADDIDX write `I`. -/
theorem Effect.I_eq (h : Effect s i t) (hldidx : ∀ nnn, i ≠ .ldidx nnn) (haddidx : ∀ x, i ≠ .addidx x) : t.I = s.I := by
  cases h with
  | ldidx nnn => exact absurd rfl (hldidx nnn)
  | addidx x => exact absurd rfl (haddidx x)
  | _ => rfl

/-- R18: only WRDT writes `DT`. -/
theorem Effect.DT_eq (h : Effect s i t) (hwrdt : ∀ x, i ≠ .wrdt x) : t.DT = s.DT := by
  cases h with
  | wrdt x => exact absurd rfl (hwrdt x)
  | _ => rfl

/-- R19: only DRW writes the framebuffer, `dirty` and `draw_oob_seen`. -/
theorem Effect.keepsDisplay (h : Effect s i t) (hdrw : ∀ x y n, i ≠ .drw x y n) : KeepsDisplay s t := by
  cases h with
  | drw x y n => exact absurd rfl (hdrw x y n)
  | _ => exact ⟨fun _ => rfl, rfl, rfl⟩

/-- R20: no instruction clears `dirty`. -/
theorem Effect.dirty_of_dirty (h : Effect s i t) (hs : s.dirty = true) : t.dirty = true := by
  cases h with
  | drw x y n ps => exact s.drawSprite_dirty ps
  | _ => exact hs

/-- R22, R99: an instruction leaves `draw_oob_seen` as it is or sets it, and sets it only where `fault` is not the policy. -/
theorem Effect.drawOobSeen_cases (h : Effect s i t) :
    t.drawOobSeen = s.drawOobSeen ∨ (s.params.drawOob ≠ .fault ∧ t.drawOobSeen = true) := by
  cases h with
  | drw x y n ps inside =>
    rw [State.drawSprite_drawOobSeen]
    by_cases hps : oobPixels ps = []
    · exact .inl (by simp [hps])
    · exact .inr ⟨fun hpolicy => hps (inside hpolicy), by simp [hps]⟩
  | _ => exact .inl rfl

end

/-! ## What a step leaves unchanged -/

section
variable {s t : State}

/-- R23, R44: no step writes memory or the open parameters. -/
theorem StepEffect.mem_params_eq (h : StepEffect s t) : t.mem = s.mem ∧ t.params = s.params := by
  cases h with
  | instruction w i _ _ _ _ _ hexec =>
    rcases exec_raises_or_keeps_system hexec with ⟨f, rfl⟩ | ⟨-, -, -, -, -, hmem, hparams⟩
    · exact ⟨rfl, rfl⟩
    · exact ⟨hmem, hparams⟩
  | _ => exact ⟨rfl, rfl⟩

/-- R121: a step keeps the fault status, or the engine was running and it is a fault entry. -/
theorem StepEffect.keepsFaultStatus_or_raises (h : StepEffect s t) :
    KeepsFaultStatus s t ∨ (s.halted = false ∧ ∃ f, t = s.raise f) := by
  cases h with
  | halted => exact .inl ⟨rfl, rfl, rfl⟩
  | fetchFault hh => exact .inr ⟨hh, _, rfl⟩
  | instruction w i _ hh _ _ _ hexec =>
    rcases exec_raises_or_keeps_system hexec with ⟨f, rfl⟩ | ⟨hhalted, hcause, hinfo, -⟩
    · exact .inr ⟨hh, f, rfl⟩
    · exact .inl ⟨hhalted, hcause, hinfo⟩
  | skip => exact .inl ⟨rfl, rfl, rfl⟩
  | illegal w hh => exact .inr ⟨hh, _, rfl⟩

/-- R111: a step reports nothing, or it is the skip of an unrecognized word. -/
theorem StepEffect.keepsReports_or_skips (h : StepEffect s t) :
    KeepsReports s t ∨ ∃ w, (s.halted = false ∧ s.params.unknownOpcode = .skip ∧ fetchWord s = some w ∧
      decode w = .error (.unrecognized w)) ∧ t = (s.report ⟨w, s.pc⟩).advance := by
  cases h with
  | instruction w i _ _ _ _ _ hexec =>
    rcases exec_raises_or_keeps_system hexec with ⟨f, rfl⟩ | ⟨-, -, -, hseen, hreports, -⟩
    · exact .inl ⟨rfl, rfl⟩
    · exact .inl ⟨hseen, hreports⟩
  | skip w hh _ hfetch hdecode hpolicy => exact .inr ⟨w, ⟨hh, hpolicy, hfetch, hdecode⟩, rfl⟩
  | _ => exact .inl ⟨rfl, rfl⟩

/-- R22, R99: see `Effect.drawOobSeen_cases`. -/
theorem StepEffect.drawOobSeen_cases (h : StepEffect s t) :
    t.drawOobSeen = s.drawOobSeen ∨ (s.params.drawOob ≠ .fault ∧ t.drawOobSeen = true) := by
  cases h with
  | instruction w i _ _ _ _ _ hexec => exact (effect_of_exec hexec).drawOobSeen_cases
  | _ => exact .inl rfl

/-- R20: no step clears `dirty`. -/
theorem StepEffect.dirty_of_dirty (h : StepEffect s t) (hs : s.dirty = true) : t.dirty = true := by
  cases h with
  | instruction w i _ _ _ _ _ hexec => exact (effect_of_exec hexec).dirty_of_dirty hs
  | _ => exact hs

end

/-! ## The obligations -/

/-- Settles O37: an instruction's effect on a register is its destination's. -/
theorem onlyDestinationRegisterWritten : Obligations.OnlyDestinationRegisterWritten :=
  fun _ _ _ _ hexec hr => (effect_of_exec hexec).readReg_eq hr

/-- Settles O38: the four that redirect and a fault aside, every effect is an advance. -/
theorem onlyControlFlowRedirects : Obligations.OnlyControlFlowRedirects :=
  fun _ _ _ hexec _ => (effect_of_exec hexec).advancesBy

/-- Settles O39: RET aside, every effect but CALL's keeps the whole stack and `sp`. -/
theorem onlyCallAndReturnUseStack : Obligations.OnlyCallAndReturnUseStack := by
  intro i s t hexec hcall
  have hstack : t.stack = s.stack := (effect_of_exec hexec).stack_eq hcall
  exact ⟨fun k => by rw [hstack], (effect_of_exec hexec).sp_eq hcall⟩

/-- Settles O40: `I` and `DT` each have their own effects. -/
theorem onlyTheirInstructionsWriteIndexAndTimer : Obligations.OnlyTheirInstructionsWriteIndexAndTimer :=
  fun _ _ _ hexec => ⟨(effect_of_exec hexec).I_eq, (effect_of_exec hexec).DT_eq⟩

/-- Settles O41: DRW's effect is the only one on the display, and it sets `dirty`. -/
theorem onlyDrawWritesDisplay : Obligations.OnlyDrawWritesDisplay :=
  ⟨fun _ _ _ hexec => (effect_of_exec hexec).keepsDisplay, fun _ _ hstep => (stepEffect_of_step hstep).dirty_of_dirty⟩

/-- Settles O35: a step that changes the fault status is a fault entry, and a host move writes none of it. -/
theorem faultsPreciseAndFinal : Obligations.FaultsPreciseAndFinal := by
  refine fun s t => ⟨fun hstep hs ht => ?_, step_halted, fun htrans hs => ?_⟩
  · rcases (stepEffect_of_step hstep).keepsFaultStatus_or_raises with ⟨hhalted, -⟩ | ⟨-, f, rfl⟩
    · rw [hhalted, hs] at ht; cases ht
    · refine ⟨s.raise_eq_faulted f, fun hcause => ?_⟩
      have hpos : 1 ≤ f.code.toNat := f.code_bounds.1
      rw [show f.code = 0 from hcause] at hpos
      exact absurd hpos (by decide)
  · rcases htrans.step_or_host with heffect | ⟨dt, dirty, rfl⟩
    · rcases heffect.keepsFaultStatus_or_raises with hkeeps | ⟨hrunning, -⟩
      · exact hkeeps
      · rw [hs] at hrunning; cases hrunning
    · exact ⟨rfl, rfl, rfl⟩

/-- Settles O42: a step keeps the memory itself, and so every byte of it. -/
theorem memoryAndParametersConstant : Obligations.MemoryAndParametersConstant := by
  intro s t htrans
  rcases htrans.step_or_host with heffect | ⟨dt, dirty, rfl⟩
  · obtain ⟨hmem, hparams⟩ := heffect.mem_params_eq
    exact ⟨fun a => by rw [hmem], hparams⟩
  · exact ⟨fun _ => rfl, rfl⟩

/-- Settles O43: a step keeps each sticky bit or sets it. -/
theorem stickyBitsNeverCleared : Obligations.StickyBitsNeverCleared := by
  intro s t htrans
  rcases htrans.step_or_host with heffect | ⟨dt, dirty, rfl⟩
  · constructor
    · intro hs
      rcases heffect.keepsReports_or_skips with ⟨hseen, -⟩ | ⟨w, -, rfl⟩
      · rw [hseen, hs]
      · rfl
    · intro hs
      rcases heffect.drawOobSeen_cases with hkept | ⟨-, hset⟩
      · rw [hkept, hs]
      · exact hset
  · exact ⟨id, id⟩

/-- Settles O44: the fetched word is skipped and reported, and no other step reports. -/
theorem reportsAreTheSkippedWords : Obligations.ReportsAreTheSkippedWords := by
  intro s t hstep
  constructor
  · intro w hh hpolicy hfetch hdecode
    rw [step_unrecognized hh hfetch hdecode, execUnrecognized_skip w hpolicy] at hstep
    cases hstep
    rfl
  · intro hno
    rcases (stepEffect_of_step hstep).keepsReports_or_skips with ⟨hseen, hreports⟩ | ⟨w, hskip, -⟩
    · exact ⟨hreports, hseen⟩
    · exact absurd ⟨w, hskip⟩ hno

end Sys2Proof.Machine
end

section
/-! Proofs/Invariant.lean: the invariant `State.Inv` at reset, at every step and at every reachable state. -/

namespace Sys2Proof.Machine

/-! ## Each part of the invariant is kept by a step -/

section
variable {s t : State}

/-- R21, R122: a step keeps the fault status, or writes a fault's own code. -/
theorem StepEffect.faultStatusConsistent (h : StepEffect s t) (hs : s.faultStatusConsistent) : t.faultStatusConsistent := by
  rcases h.keepsFaultStatus_or_raises with ⟨hhalted, hcause, hinfo⟩ | ⟨-, f, rfl⟩
  · rw [State.faultStatusConsistent, hhalted, hcause, hinfo]
    exact hs
  · exact ⟨nofun, fun _ => f.code_bounds⟩

/-- R22: a report sets `unimpl_seen`. -/
theorem StepEffect.reportsRemembered (h : StepEffect s t) (hs : s.reportsRemembered) : t.reportsRemembered := by
  rcases h.keepsReports_or_skips with ⟨hseen, hreports⟩ | ⟨w, -, rfl⟩
  · rw [State.reportsRemembered, hseen, hreports]
    exact hs
  · simp [State.reportsRemembered]

/-- R22, R99: a sticky bit is set only under a policy other than `fault`. -/
theorem StepEffect.stickyBitsMatchPolicy (h : StepEffect s t) (hs : s.stickyBitsMatchPolicy) : t.stickyBitsMatchPolicy := by
  obtain ⟨hunimpl, hdraw⟩ := hs
  rw [State.stickyBitsMatchPolicy, h.mem_params_eq.2]
  constructor
  · intro hfault
    rcases h.keepsReports_or_skips with ⟨hseen, -⟩ | ⟨w, ⟨-, hskip, -⟩, -⟩
    · rw [hseen, hunimpl hfault]
    · rw [hskip] at hfault; cases hfault
  · intro hfault
    rcases h.drawOobSeen_cases with hkept | ⟨hpolicy, -⟩
    · rw [hkept, hdraw hfault]
    · exact absurd hfault hpolicy

/-- The bounds of a state whose stack is that of a bounded one. -/
theorem State.addressesBounded.of_pc (hs : s.addressesBounded) (hstack : t.stack = s.stack) (hsp : t.sp = s.sp)
    (hpc : t.pc.toNat ≤ 0x1002) : t.addressesBounded := by
  rw [State.addressesBounded, hstack, hsp]
  exact ⟨hpc, hs.2⟩

/-- R13: the address `n` bytes after an instruction that lies in memory does not wrap. -/
theorem pc_add_toNat {pc : Word} (h : pc.toNat + 1 < memSize) {n : Nat} (hn : n ≤ 4) :
    (pc + BitVec.ofNat 16 n).toNat = pc.toNat + n := by
  have hmem : memSize = 4096 := rfl
  rw [BitVec.toNat_add, BitVec.toNat_ofNat]
  omega

/-- R13, R70, R72: an instruction fetched from memory leaves the addresses bounded: it advances from below 0x0FFF, jumps below
0x1000, returns to a pushed address, or pushes the address 2 after one below 0x0FFF. -/
theorem Effect.addressesBounded {i : Instr} (h : Effect s i t) (hpc : s.pc.toNat + 1 < memSize)
    (hs : s.addressesBounded) : t.addressesBounded := by
  have hmem : memSize = 4096 := rfl
  have htwo : (s.pc + 2).toNat = s.pc.toNat + 2 := pc_add_toNat hpc (by decide)
  have hfour : (s.pc + 4).toNat = s.pc.toNat + 4 := pc_add_toNat hpc (by decide)
  have hadvance : (s.pc + 2).toNat ≤ 0x1002 := by omega
  cases h with
  | fault => exact hs.of_pc rfl rfl hs.1
  | ret k used =>
    obtain ⟨-, hentries⟩ := hs
    exact ⟨(hentries k (by omega)).2.trans (by decide), fun j hj => hentries j (hj.trans (by simp only; omega))⟩
  | jp nnn =>
    refine hs.of_pc rfl rfl ?_
    rw [State.jump_pc, addrOperand_toNat]
    omega
  | call nnn room =>
    refine ⟨?_, fun j hj => ?_⟩
    · simp only [addrOperand_toNat]
      omega
    · simp only [Vector.getElem_set]
      split
      · omega
      · exact hs.2 j (by simp only at hj; omega)
  | seSkip => exact hs.of_pc rfl rfl (by rw [State.advanceSkip_pc]; omega)
  | _ => exact hs.of_pc rfl rfl hadvance

/-- R13, R17, R70: a step leaves the addresses bounded. -/
theorem StepEffect.addressesBounded (h : StepEffect s t) (hs : s.addressesBounded) : t.addressesBounded := by
  cases h with
  | instruction w i _ _ hpc _ _ hexec => exact (effect_of_exec hexec).addressesBounded hpc hs
  | skip w _ hpc =>
    have hmem : memSize = 4096 := rfl
    have htwo : (s.pc + 2).toNat = s.pc.toNat + 2 := pc_add_toNat hpc (by decide)
    exact hs.of_pc rfl rfl (by rw [State.advance_pc, State.report_pc]; omega)
  | _ => exact hs.of_pc rfl rfl hs.1

/-- A step keeps the invariant, part by part. -/
theorem StepEffect.inv (h : StepEffect s t) (hs : s.Inv) : t.Inv := by
  obtain ⟨hmem, hfault, hreports, hsticky, haddr⟩ := hs
  exact ⟨h.mem_params_eq.1 ▸ hmem, h.faultStatusConsistent hfault, h.reportsRemembered hreports,
    h.stickyBitsMatchPolicy hsticky, h.addressesBounded haddr⟩

/-- No part of the invariant speaks of `DT` or `dirty`, so every transition keeps it. -/
theorem Transition.inv (h : Transition s t) (hs : s.Inv) : t.Inv := by
  rcases h.step_or_host with heffect | ⟨dt, dirty, rfl⟩
  · exact heffect.inv hs
  · exact hs

end

/-! ## Reset and launch -/

/-- The invariant of a state right after reset with any canonical memory. -/
theorem resetWith_inv_of_wf (p : Params) {m : Memory} (hm : m.wf = true) :
    ({ State.resetWith p with mem := m } : State).Inv := by
  have hpc : programStart % 65536 ≤ 0x1002 := by decide
  exact ⟨hm, ⟨fun _ => ⟨rfl, rfl⟩, nofun⟩, rfl, ⟨fun _ => rfl, fun _ => rfl⟩, hpc, fun _ hk => absurd hk (Nat.not_lt_zero _)⟩

/-- R152: an image of at most `IMAGE_MAX` bytes launches with its bytes at 0x200. -/
theorem launch_eq_some (p : Params) {image : List Byte} (h : image.length ≤ imageMax) :
    launch p image = some { State.resetWith p with mem := (State.resetWith p).mem.writeBytes programStart image } := by
  rw [launch, State.loadImage, if_neg (Nat.not_lt.mpr h)]

/-- R152: a longer image is rejected. -/
theorem loadImage_eq_error (s : State) {image : List Byte} (h : imageMax < image.length) :
    s.loadImage image = .error .imageTooLarge := if_pos h

theorem launch_eq_none (p : Params) {image : List Byte} (h : imageMax < image.length) : launch p image = none := by
  rw [launch, loadImage_eq_error _ h]

theorem launch_inv {p : Params} {image : List Byte} {s : State} (h : launch p image = some s) : s.Inv := by
  by_cases hlen : image.length ≤ imageMax
  · rw [launch_eq_some p hlen] at h
    cases h
    exact resetWith_inv_of_wf p (Memory.writeBytes_wf (Memory.reset_wf p) _ _)
  · rw [launch_eq_none p (Nat.not_le.mp hlen)] at h
    cases h

/-! ## The obligations -/

/-- Settles O46: reset's memory is canonical. -/
theorem resetSatisfiesInvariant : Obligations.ResetSatisfiesInvariant :=
  have hreset : ∀ p : Params, (State.resetWith p).Inv := fun p => resetWith_inv_of_wf p (Memory.reset_wf p)
  ⟨hreset Params.reference, hreset⟩

/-- Settles O47, part by part over what a step can do. -/
theorem stepKeepsInvariant : Obligations.StepKeepsInvariant := fun _ _ hs hstep => (stepEffect_of_step hstep).inv hs

/-- Settles O48, by induction on the run: a launch satisfies the invariant and every transition keeps it. -/
theorem reachableStatesSatisfyInvariant : Obligations.ReachableStatesSatisfyInvariant := by
  intro s hreach
  induction hreach with
  | launched p image s h => exact launch_inv h
  | moved s t _ h ih => exact h.inv ih

end Sys2Proof.Machine
end

section
/-! Proofs/Stack.lean: CALL and RET (40_control_flow.md, R70 and R72), and the JP to itself (R138). -/

namespace Sys2Proof.Machine

/-! ## CALL and RET -/

/-- R72: the state a CALL with room leaves. -/
def State.called (s : State) (nnn : Addr) (room : s.sp.val < stackDepth) : State :=
  { s with stack := s.stack.set s.sp.val (s.pc + 2), sp := ⟨s.sp.val + 1, Nat.succ_lt_succ room⟩, pc := addrOperand nnn }

/-- R70: the state a RET of entry `k` leaves. -/
def State.returned (s : State) (k : Fin stackDepth) : State :=
  { s with sp := ⟨k.val, Nat.lt_succ_of_lt k.isLt⟩, pc := s.stack[k.val] }

theorem exec_call_room (nnn : Addr) (s : State) (room : s.sp.val < stackDepth) :
    exec (.call nnn) s = .next (s.called nnn room) := by
  rcases execCall_cases nnn s with ⟨full, -⟩ | ⟨_, hexec⟩
  · exact absurd full (Nat.ne_of_lt room)
  · exact hexec

theorem exec_call_full (nnn : Addr) (s : State) (full : s.sp.val = stackDepth) :
    exec (.call nnn) s = .next (s.raise (.stackOverflow s.pc)) := by
  rcases execCall_cases nnn s with ⟨-, hexec⟩ | ⟨room, -⟩
  · exact hexec
  · exact absurd full (Nat.ne_of_lt room)

theorem exec_ret_used (s : State) (k : Fin stackDepth) (used : s.sp.val = k.val + 1) :
    exec .ret s = .next (s.returned k) := by
  rcases execRet_cases s with ⟨empty, -⟩ | ⟨j, hj, hexec⟩
  · omega
  · obtain rfl : j = k := Fin.ext (by omega)
    exact hexec

theorem exec_ret_empty (s : State) (empty : s.sp.val = 0) : exec .ret s = .next (s.raise (.stackUnderflow s.pc)) := by
  rcases execRet_cases s with ⟨-, hexec⟩ | ⟨j, hj, -⟩
  · exact hexec
  · omega

section
variable {s t : State}

/-- The frame shared by CALL and RET: a state that differs in `pc`, `sp` and the stack alone. -/
theorem control_frame (h : t = { s with pc := t.pc, sp := t.sp, stack := t.stack }) :
    KeepsRegisters s t ∧ t.I = s.I ∧ t.DT = s.DT ∧ KeepsDisplay s t ∧ KeepsSystem s t := by
  rw [h]
  exact ⟨fun _ => rfl, rfl, rfl, ⟨fun _ => rfl, rfl, rfl⟩, ⟨rfl, rfl, rfl⟩, ⟨rfl, rfl⟩, fun _ => rfl, rfl⟩

/-- R72: the pushed entry is the address after the CALL. -/
theorem State.called_stack_top (nnn : Addr) (room : s.sp.val < stackDepth) :
    (s.called nnn room).stack[s.sp.val] = s.pc + 2 := by
  simp [State.called]

/-- R16: a CALL writes one stack entry. -/
theorem State.called_keepsStackEntriesBut (nnn : Addr) (room : s.sp.val < stackDepth) :
    KeepsStackEntriesBut s.sp.val s (s.called nnn room) :=
  fun j hj => Vector.getElem_set_ne room j.isLt (Ne.symm hj)

end

/-! ## The obligations -/

/-- Settles O16, by the two cases of CALL. -/
theorem callPushesOrOverflows : Obligations.CallPushesOrOverflows := by
  refine fun nnn s => ⟨fun k hk => ?_, exec_call_full nnn s⟩
  have room : s.sp.val < stackDepth := hk ▸ k.isLt
  have htop : ((s.called nnn room).stack[s.sp.val]).toNat = (s.pc.toNat + 2) % 65536 := by
    rw [State.called_stack_top, BitVec.toNat_add]
    rfl
  have hframe := control_frame (s := s) (t := s.called nnn room) rfl
  simp only [← hk]
  exact ⟨_, exec_call_room nnn s room, htop, rfl, addrOperand_toNat nnn, s.called_keepsStackEntriesBut nnn room, hframe⟩

/-- Settles O17, by the two cases of RET. -/
theorem returnPopsOrUnderflows : Obligations.ReturnPopsOrUnderflows := by
  refine fun s => ⟨fun k hk => ?_, exec_ret_empty s⟩
  have hframe := control_frame (s := s) (t := s.returned k) rfl
  exact ⟨_, exec_ret_used s k hk, rfl, rfl, fun _ => rfl, hframe⟩

/-- Settles O18: the RET pops the entry the CALL pushed. -/
theorem returnUndoesCall : Obligations.ReturnUndoesCall := by
  intro nnn s room
  let top : Fin stackDepth := ⟨s.sp.val, room⟩
  have hpc : ((s.called nnn room).returned top).pc = s.pc + 2 := State.called_stack_top nnn room
  have hframe := control_frame (s := s) (t := (s.called nnn room).returned top) rfl
  exact ⟨_, _, exec_call_room nnn s room, exec_ret_used _ top rfl, advancesBy_of_pc hpc, rfl,
    s.called_keepsStackEntriesBut nnn room, hframe⟩

/-- R138: at a fixed point a step leaves the state. -/
theorem step_of_atFixedPoint {s : State} (h : s.atFixedPoint) : step s = .next s := by
  obtain ⟨hh, nnn, htarget, hfetch⟩ := h
  rw [step_fetch_some hh hfetch, runWord_ok s (decode_encode _), exec_jp, htarget]
  rfl

/-- One step more of a run whose first step answers a next state. -/
theorem core_run_succ {M : Host.Core} {a b : M.State} (h : M.step a = .next b) (k : Nat) : M.run (k + 1) a = M.run k b := by
  rw [Host.Core.run, h]

/-- Settles O19, by induction on the number of steps. -/
theorem jumpToSelfIsFixedPoint : Obligations.JumpToSelfIsFixedPoint := by
  intro s h k
  have hstep : core.step s = .next s := step_of_atFixedPoint h
  induction k with
  | zero => rfl
  | succ k ih => exact (core_run_succ hstep k).trans ih

end Sys2Proof.Machine
end

section
/-! Proofs/AddIndex.lean: ADDIDX (43_index.md, R91). -/

namespace Sys2Proof.Machine

theorem exec_addidx (x : Reg) (s : State) :
    exec (.addidx x) s = .next (s.writeIndex (s.I + zextByte (s.readReg x))).advance := rfl

/-- R9: zero extension keeps the number. -/
@[simp] theorem zextByte_toNat (v : Byte) : (zextByte v).toNat = v.toNat := BitVec.toNat_setWidth_of_le (by decide)

/-- Settles O25: the sum of two words is the natural sum modulo 65536. -/
theorem addIndexResult : Obligations.AddIndexResult := by
  intro x s
  have hindex : (s.writeIndex (s.I + zextByte (s.readReg x))).advance.I.toNat =
      (s.I.toNat + (s.readReg x).toNat) % 65536 := by
    rw [State.advance_I, State.writeIndex_I, BitVec.toNat_add, zextByte_toNat]
  exact ⟨_, exec_addidx x s, hindex, s.writeIndex_advance_advancesBy _, s.writeIndex_advance_frame _⟩

end Sys2Proof.Machine
end

section
/-! Proofs/Host.lean: the moves of the host (60_exceptions.md, R133 to R139), and the timer under Tick (R105, R134). -/

namespace Sys2Proof.Machine

/-! ## Tick -/

/-- R134: Tick subtracts 1 and saturates at zero, as the subtraction of natural numbers does. -/
theorem tickTimer_toNat (dt : Byte) : (tickTimer dt).toNat = dt.toNat - 1 := by
  rw [tickTimer]
  split
  case isTrue h => rw [h]; rfl
  case isFalse h =>
    have hpos : dt.toNat ≠ 0 := fun h0 => h (BitVec.eq_of_toNat_eq h0)
    bv_omega

/-- R134: Tick where it exists. -/
theorem hostMove?_tick {s : State} (h : s.params.timerTickEnable = true) :
    s.hostMove? .tick = some (.nothing, { s with DT := tickTimer s.DT }) := by
  simp only [State.hostMove?, State.tick?, h, if_true]

/-- R134: a schedule that begins with Tick. -/
theorem runMoves?_tick {s : State} (h : s.params.timerTickEnable = true) (rest : List HostMove) :
    s.runMoves? (.tick :: rest) = ({ s with DT := tickTimer s.DT } : State).runMoves? rest := by
  rw [State.runMoves?, hostMove?_tick h]
  exact nofun

/-- R134: any number of Ticks, one after the other. -/
theorem runMoves?_ticks {s : State} (h : s.params.timerTickEnable = true) (k : Nat) :
    ∃ dt : Byte, s.runMoves? (List.replicate k .tick) = some { s with DT := dt } ∧ dt.toNat = s.DT.toNat - k := by
  induction k generalizing s with
  | zero => exact ⟨s.DT, rfl, rfl⟩
  | succ k ih =>
    obtain ⟨dt, hrun, hdt⟩ := ih (s := { s with DT := tickTimer s.DT }) h
    refine ⟨dt, ?_, ?_⟩
    · exact (runMoves?_tick h _).trans hrun
    · rw [hdt, tickTimer_toNat]
      omega

/-- Settles O27: the WRDT leaves `v` in `DT`, the Ticks subtract `k`, and the RDDT reads what is left. -/
theorem timerReadAfterTicks : Obligations.TimerReadAfterTicks := by
  intro x y s t k henable hexec
  rw [exec_wrdt] at hexec
  cases hexec
  obtain ⟨dt, hrun, hdt⟩ := runMoves?_ticks (s := (s.writeTimer (s.readReg x)).advance) henable k
  refine ⟨_, _, hrun, exec_rddt y _, ?_⟩
  rw [State.writeReg_advance_readReg_same, hdt, State.writeTimer_advance_DT]

/-- Settles O51: Tick exists by its parameter, and its decrement is a natural subtraction. -/
theorem tickSaturates : Obligations.TickSaturates := by
  refine fun s => ⟨fun h => ⟨_, hostMove?_tick h, tickTimer_toNat s.DT, rfl⟩, fun h => ?_⟩
  simp [State.hostMove?, State.tick?, h]

/-! ## RenderAck and Step -/

/-- Settles O52: RenderAck's one condition is `dirty`. -/
theorem renderAckHandsOverFrame : Obligations.RenderAckHandsOverFrame := by
  refine fun s => ⟨fun h => ?_, fun h => ?_⟩ <;> simp [State.hostMove?, State.renderAck?, h]

/-- R133: Step does not exist on a halted engine. -/
theorem hostMove?_step_halted {s : State} (h : s.halted = true) : s.hostMove? .step = none := by
  simp only [State.hostMove?, h, if_true]

/-- R133: Step on a running engine is the engine step. -/
theorem hostMove?_step_running {s t : State} (h : s.halted = false) (hstep : step s = .next t) :
    s.hostMove? .step = some (stepReply s t, t) := by
  simp [State.hostMove?, h, hstep]

/-- Settles O53, by the moves of the host one by one. -/
theorem hostMovesWriteOnlyTimerAndDirty : Obligations.HostMovesWriteOnlyTimerAndDirty := by
  refine ⟨fun m s t reply hm hmove => ?_, fun s => ⟨hostMove?_step_halted, fun h _ => hostMove?_step_running h⟩⟩
  rcases hostMove?_cases hmove with ⟨hstep, -⟩ | ⟨htick, rfl⟩ | ⟨hack, rfl⟩ | ⟨-, rfl⟩
  · exact absurd hstep hm
  · exact ⟨rfl, fun hne => absurd htick hne, fun _ => rfl⟩
  · exact ⟨rfl, fun _ => rfl, fun hne => absurd hack hne⟩
  · exact ⟨rfl, fun _ => rfl, fun _ => rfl⟩

end Sys2Proof.Machine
end

section
/-! Proofs/Load.lean: reset, LoadImage and the placing of a word (70_reset_and_hazards.md, R150 to R152). -/

namespace Sys2Proof.Machine

/-! ## Reset and LoadImage -/

/-- R25: every address reads 0 after reset. -/
theorem resetWith_read? (p : Params) {a : Nat} (h : a < memSize) : (State.resetWith p).mem.read? a = some 0 :=
  Memory.read?_of_lt _ h

/-- R25: every register holds 0 after reset. -/
theorem resetWith_readReg (p : Params) (r : Reg) : (State.resetWith p).readReg r = 0 :=
  Vector.getElem_replicate r.isLt

/-- R25: every stack entry holds 0 after reset. -/
theorem resetWith_stack (p : Params) (k : Fin stackDepth) : (State.resetWith p).stack[k.val] = 0 :=
  Vector.getElem_replicate k.isLt

/-- R25: every cell is 0 after reset. -/
theorem resetWith_cell (p : Params) (c : Coord) : (State.resetWith p).fb.cell c = false := by
  simp [Framebuffer.cell, State.resetWith]

/-- Settles O49, field by field. -/
theorem resetValues : Obligations.ResetValues := fun _ p =>
  ⟨resetWith_readReg p, rfl, rfl, resetWith_stack p, rfl, rfl, resetWith_cell p, rfl, rfl, rfl, rfl, rfl, rfl,
    fun _ => resetWith_read? p, rfl⟩

/-- Settles O50: the launch writes the image into the memory of reset. -/
theorem loadImageAllOrNothing : Obligations.LoadImageAllOrNothing := by
  refine fun p image => ⟨fun hlen => ?_, fun hlen => ⟨loadImage_eq_error _ hlen, launch_eq_none p hlen⟩⟩
  have hwf : (State.resetWith p).mem.wf = true := Memory.reset_wf p
  refine ⟨_, launch_eq_some p hlen, rfl, fun k hk => ?_, fun a ha hout => ?_⟩
  · exact Memory.read?_writeBytes_inside hwf programStart k image hk (by simp only [programStart, memSize]; omega)
  · exact (Memory.read?_writeBytes_outside hwf programStart a image hout).trans (resetWith_read? p ha)

/-! ## Placing a word -/

/-- R51: 16 bits of a word's number are the word. -/
theorem tableWord_toNat (w : Word) : tableWord 16 w.toNat = w := by
  rw [tableWord, Nat.mod_eq_of_lt w.isLt, BitVec.ofNat_toNat, BitVec.setWidth_eq]

/-- R33: the bytes of a word written to memory at `pc` are fetched as that word. -/
theorem fetchWord_writeBytes {s : State} (hwf : s.mem.wf = true) (hpc : s.pc.toNat + 1 < memSize) (w : Word) :
    fetchWord { s with mem := s.mem.writeBytes s.pc.toNat (bytesOfWord w) } = some w := by
  have hhi := Memory.read?_writeBytes_inside hwf s.pc.toNat 0 (bytesOfWord w) Nat.zero_lt_two (Nat.lt_of_succ_lt hpc)
  have hlo := Memory.read?_writeBytes_inside hwf s.pc.toNat 1 (bytesOfWord w) Nat.one_lt_two hpc
  exact (fetchWord_of_read? hhi hlo).trans (congrArg some (wordOfBytes_of_word w))

/-- Settles O11: the two bytes at `pc` and `pc + 1` are the word's, and every other byte is as it was. -/
theorem placedWordIsFetched : Obligations.PlacedWordIsFetched := by
  intro s w hwf hh hpc
  have hfetch : fetchWord (s.withFetchWord 16 w.toNat) = some w := by
    rw [State.withFetchWord, tableWord_toNat]
    exact fetchWord_writeBytes hwf hpc w
  have hrunning : (s.withFetchWord 16 w.toNat).halted = false := hh
  refine ⟨hfetch, step_fetch_some hrunning hfetch, Memory.writeBytes_wf hwf _ _, rfl, fun a h0 h1 => ?_⟩
  have hlen : (bytesOfWord (tableWord 16 w.toNat)).length = 2 := rfl
  exact Memory.read?_writeBytes_outside hwf _ a _ (by omega)

end Sys2Proof.Machine
end

section
/-! Proofs/DrawCells.lean: which cells a DRW toggles, and which of its pixels is the first out of range (44_draw.md, R95 to
R101). -/

namespace Sys2Proof.Machine

/-! ## No cell twice (R101) -/

theorem Pixel.wrapped_of_target {policy : DrawOobPolicy} {p : Pixel} {c : Coord} (h : p.target policy = some c) :
    p.wrapped = c := by
  unfold Pixel.target at h
  split at h
  · cases policy <;> cases h
    rfl
  · exact Option.some.inj h

/-- R101 (a): two pixels of a sprite are less than 64 columns and less than 32 rows apart, so wrapping tells them apart. -/
theorem wrapped_injective_on_sprite {px py : Nat} {rows : List Byte} (hlen : rows.length ≤ 15) {p q : Pixel}
    (hp : p ∈ spritePixels px py rows) (hq : q ∈ spritePixels px py rows) (h : p.wrapped = q.wrapped) : p = q := by
  obtain ⟨r, c, hr, hc, -, rfl⟩ := mem_spritePixels.mp hp
  obtain ⟨r', c', hr', hc', -, rfl⟩ := mem_spritePixels.mp hq
  simp only [Pixel.wrapped, Coord.mk.injEq, Fin.mk.injEq, fbWidth, fbHeight] at h
  rw [Pixel.mk.injEq]
  omega

/-- R95: a sprite's set pixels are all different. -/
theorem spritePixels_nodup (px py : Nat) (rows : List Byte) : (spritePixels px py rows).Nodup := by
  refine (spritePixels_rowMajor px py rows).imp fun {p q} hbefore heq => ?_
  rw [heq, Pixel.before] at hbefore
  omega

/-- R101 (a): the cells a sprite of at most 15 rows toggles are all different. -/
theorem drawTargets_nodup (policy : DrawOobPolicy) (px py : Nat) {rows : List Byte} (hlen : rows.length ≤ 15) :
    (drawTargets policy (spritePixels px py rows)).Nodup := by
  rw [drawTargets, List.Nodup, List.pairwise_filterMap]
  refine (spritePixels_nodup px py rows).imp_of_mem fun {p q} hp hq hne c hc d hd heq => hne ?_
  refine wrapped_injective_on_sprite hlen hp hq ?_
  rw [Pixel.wrapped_of_target hc, Pixel.wrapped_of_target hd, heq]

/-! ## The cells a DRW toggles -/

section
variable {s : State} {x y : Reg} {n : RowCount}

/-- The cells that the DRW of the sprite at `I` toggles, in the order they are drawn. -/
def State.drawCells (s : State) (x y : Reg) (n : RowCount) : List Coord :=
  drawTargets s.params.drawOob (s.drawPixels x y (s.spriteBytes n))

theorem State.drawCells_nodup (s : State) (x y : Reg) (n : RowCount) : (s.drawCells x y n).Nodup :=
  drawTargets_nodup _ _ _ (by rw [State.spriteBytes_length]; omega)

/-- R97, R99: a pixel wraps to a cell and is not dropped exactly when it is at that cell, or `wrap` brings it there. -/
theorem Pixel.wrapped_eq_iff {policy : DrawOobPolicy} {p : Pixel} {cell : Coord} :
    (p.wrapped = cell ∧ (p.outOfRange = true → policy = .wrap)) ↔
      (p.col = cell.col.val ∧ p.row = cell.row.val) ∨
      (policy = .wrap ∧ p.col % fbWidth = cell.col.val ∧ p.row % fbHeight = cell.row.val) := by
  obtain ⟨⟨cc, hcc⟩, ⟨cr, hcr⟩⟩ := cell
  simp only [Pixel.wrapped, Coord.mk.injEq, Fin.mk.injEq]
  constructor
  · rintro ⟨⟨hcol, hrow⟩, hpolicy⟩
    by_cases hout : p.outOfRange = true
    · exact .inr ⟨hpolicy hout, hcol, hrow⟩
    · obtain ⟨hc, hr⟩ := p.outOfRange_eq_false_iff.mp (by simpa using hout)
      rw [Nat.mod_eq_of_lt hc] at hcol
      rw [Nat.mod_eq_of_lt hr] at hrow
      exact .inl ⟨hcol, hrow⟩
  · rintro (⟨rfl, rfl⟩ | ⟨hpolicy, hcol, hrow⟩)
    · refine ⟨⟨Nat.mod_eq_of_lt hcc, Nat.mod_eq_of_lt hcr⟩, fun hout => ?_⟩
      rw [p.outOfRange_eq_false_iff.mpr ⟨hcc, hcr⟩] at hout
      cases hout
    · exact ⟨⟨hcol, hrow⟩, fun _ => hpolicy⟩

/-- R97, R99: the cells of the model's list are those set pixels are drawn at. -/
theorem mem_drawCells (h : s.spriteReadable n) {cell : Coord} : cell ∈ s.drawCells x y n ↔ s.drawnAt x y n cell := by
  rw [State.drawCells, mem_drawTargets, State.drawnAt]
  constructor
  · rintro ⟨p, hp, hcell⟩
    obtain ⟨r, c, hset, rfl⟩ := (mem_drawPixels h).mp hp
    exact ⟨r, c, hset, Pixel.wrapped_eq_iff.mp hcell⟩
  · rintro ⟨r, c, hset, hcell⟩
    exact ⟨⟨s.pixelCol x c, s.pixelRow y r⟩, (mem_drawPixels h).mpr ⟨r, c, hset, rfl⟩, Pixel.wrapped_eq_iff.mpr hcell⟩

/-! ## The first pixel out of range -/

/-- R95 phase 2: the first out-of-range pixel of the model's list is the sprite's first. -/
theorem head?_oobPixels (h : s.spriteReadable n) {r c : Nat} (hfirst : s.firstOutside x y n r c) :
    (oobPixels (s.drawPixels x y (s.spriteBytes n))).head? = some ⟨s.pixelCol x c, s.pixelRow y r⟩ := by
  obtain ⟨hout, hleast⟩ := hfirst
  have hmem : (⟨s.pixelCol x c, s.pixelRow y r⟩ : Pixel) ∈ oobPixels (s.drawPixels x y (s.spriteBytes n)) :=
    (mem_oobPixels h).mpr ⟨r, c, hout, rfl⟩
  have hsorted : (oobPixels (s.drawPixels x y (s.spriteBytes n))).Pairwise Pixel.before := oobPixels_rowMajor _ _ _
  cases hps : oobPixels (s.drawPixels x y (s.spriteBytes n)) with
  | nil => rw [hps] at hmem; cases hmem
  | cons p rest =>
    obtain ⟨r', c', hout', rfl⟩ := (mem_oobPixels h).mp (hps ▸ List.mem_cons_self)
    rw [hps] at hmem hsorted
    rcases List.mem_cons.mp hmem with heq | hrest
    · rw [heq]; rfl
    · have hbefore := List.rel_of_pairwise_cons hsorted hrest
      have hle := hleast r' c' hout'
      simp only [Pixel.before, State.pixelCol, State.pixelRow] at hbefore
      omega

/-! ## DRW by its cases -/

/-- R126: a sprite that runs past memory. -/
theorem exec_drw_past_memory (x y : Reg) (h1 : 0 < n.val) (h2 : memSize < s.I.toNat + n.val) :
    exec (.drw x y n) s = .next (s.raise (.dataOutOfRange (BitVec.ofNat 16 (max s.I.toNat memSize)) s.pc)) := by
  rcases execDrw_cases x y n s with ⟨-, -, hexec⟩ | ⟨hread, -⟩
  · exact hexec
  · omega

/-- R127: a pixel out of range under `fault`. -/
theorem exec_drw_outside_fault (h : s.spriteReadable n) (hpolicy : s.params.drawOob = .fault) {p : Pixel}
    (hp : (oobPixels (s.drawPixels x y (s.spriteBytes n))).head? = some p) :
    exec (.drw x y n) s = .next (s.raise (.framebufferOutOfRange (BitVec.ofNat 16 p.col) (BitVec.ofNat 16 p.row))) := by
  rcases execDrw_cases x y n s with ⟨h1, h2, -⟩ | ⟨-, ⟨q, -, hq, hexec⟩ | ⟨hnil, -⟩⟩
  · rcases h with h | h <;> omega
  · rw [hp] at hq
    cases hq
    exact hexec
  · rw [hnil hpolicy] at hp; cases hp

/-- R95: the state a DRW that no fault stops leaves. -/
def State.drawn (s : State) (x y : Reg) (n : RowCount) : State := s.drawSprite (s.drawPixels x y (s.spriteBytes n))

/-- R95: a DRW that no fault stops draws its pixels. -/
theorem exec_drw_draws (h : s.spriteReadable n) (hinside : s.params.drawOob = .fault → ¬ s.someOutside x y n) :
    exec (.drw x y n) s = .next (s.drawn x y n) := by
  rcases execDrw_cases x y n s with ⟨h1, h2, -⟩ | ⟨-, ⟨p, hpolicy, hp, -⟩ | ⟨-, hexec⟩⟩
  · rcases h with h | h <;> omega
  · rw [(oobPixels_eq_nil h).mpr (hinside hpolicy)] at hp; cases hp
  · exact hexec

end

end Sys2Proof.Machine
end

section
/-! Proofs/Draw.lean: DRW (44_draw.md, R95 to R101). -/

namespace Sys2Proof.Machine

/-! ## The drawn state -/

section
variable {s : State} {x y : Reg} {n : RowCount}

/-- R97: the drawn cells are complemented, the others kept. -/
theorem State.drawn_cell (h : s.spriteReadable n) (cell : Coord) :
    (s.drawnAt x y n cell → (s.drawn x y n).fb.cell cell = !s.fb.cell cell) ∧
      (¬ s.drawnAt x y n cell → (s.drawn x y n).fb.cell cell = s.fb.cell cell) := by
  have hblit : (s.drawn x y n).fb.cell cell = if cell ∈ s.drawCells x y n then !s.fb.cell cell else s.fb.cell cell :=
    Framebuffer.cell_blit (s.drawCells_nodup x y n) s.fb false cell
  rw [hblit, ← mem_drawCells h]
  exact ⟨fun hm => if_pos hm, fun hm => if_neg hm⟩

/-- R97: the collision result is 1 when a drawn cell was 1, and 0 otherwise. -/
theorem State.drawn_readReg_vf (h : s.spriteReadable n) :
    ((∃ cell, s.drawnAt x y n cell ∧ s.fb.cell cell = true) → (s.drawn x y n).readReg Reg.vf = 1) ∧
      ((¬ ∃ cell, s.drawnAt x y n cell ∧ s.fb.cell cell = true) → (s.drawn x y n).readReg Reg.vf = 0) := by
  have hhit : (s.drawn x y n).readReg Reg.vf = collisionFlag ((s.drawCells x y n).any s.fb.cell) := by
    rw [State.drawn, State.drawSprite_readReg_vf]
    exact congrArg collisionFlag ((Framebuffer.hit_blit (s.drawCells_nodup x y n) s.fb false).trans (Bool.false_or _))
  have hany : (s.drawCells x y n).any s.fb.cell = true ↔ ∃ cell, s.drawnAt x y n cell ∧ s.fb.cell cell = true := by
    simp only [List.any_eq_true, mem_drawCells h]
  rw [hhit, collisionFlag, ← hany]
  exact ⟨fun hm => if_pos hm, fun hm => if_neg hm⟩

/-- R99: `draw_oob_seen` is set when a set pixel has no cell, and kept otherwise. -/
theorem State.drawn_drawOobSeen (h : s.spriteReadable n) :
    (s.someOutside x y n → (s.drawn x y n).drawOobSeen = true) ∧
      (¬ s.someOutside x y n → (s.drawn x y n).drawOobSeen = s.drawOobSeen) := by
  rw [State.drawn, State.drawSprite_drawOobSeen]
  constructor
  · intro hout
    have hne : oobPixels (s.drawPixels x y (s.spriteBytes n)) ≠ [] := fun hnil => (oobPixels_eq_nil h).mp hnil hout
    simp [hne]
  · intro hin
    simp [(oobPixels_eq_nil h).mpr hin]

/-- R95: what a DRW never writes. -/
theorem State.drawn_frame (s : State) (x y : Reg) (n : RowCount) :
    KeepsRegistersBut Reg.vf s (s.drawn x y n) ∧ (s.drawn x y n).I = s.I ∧ KeepsStack s (s.drawn x y n) ∧
      (s.drawn x y n).DT = s.DT ∧ KeepsSystem s (s.drawn x y n) :=
  have hregs : KeepsRegistersBut Reg.vf s (s.drawn x y n) := fun _ hr => s.drawSprite_readReg_ne _ hr
  have hsystem : KeepsSystem s (s.drawn x y n) := ⟨⟨rfl, rfl, rfl⟩, ⟨rfl, rfl⟩, fun _ => rfl, rfl⟩
  ⟨hregs, rfl, ⟨rfl, fun _ => rfl⟩, rfl, hsystem⟩

/-- R101 (c): a sprite of no rows has no pixels. -/
theorem State.not_pixelSet_zero (s : State) (r c : Nat) : ¬ s.pixelSet 0 r c := fun hset => Nat.not_lt_zero r hset.1

/-- R97: where the pixels are drawn depends on the position, `I`, memory and the policy alone. -/
theorem drawnAt_congr {t : State} (hx : t.readReg x = s.readReg x) (hy : t.readReg y = s.readReg y) (hI : t.I = s.I)
    (hmem : t.mem = s.mem) (hparams : t.params = s.params) (cell : Coord) :
    t.drawnAt x y n cell ↔ s.drawnAt x y n cell := by
  simp only [State.drawnAt, State.pixelSet, State.pixelCol, State.pixelRow, hx, hy, hI, hmem, hparams]

theorem someOutside_congr {t : State} (hx : t.readReg x = s.readReg x) (hy : t.readReg y = s.readReg y) (hI : t.I = s.I)
    (hmem : t.mem = s.mem) : t.someOutside x y n ↔ s.someOutside x y n := by
  simp only [State.someOutside, State.pixelOutside, State.pixelSet, State.pixelCol, State.pixelRow, hx, hy, hI, hmem]

/-! ## Policies -/

/-- The state with another policy for pixels out of range. -/
def State.withDrawOob (s : State) (policy : DrawOobPolicy) : State :=
  { s with params := { s.params with drawOob := policy } }

/-- R99: pixels in range have the same cells under every policy. -/
theorem drawTargets_of_inside {ps : List Pixel} (h : oobPixels ps = []) (policy policy' : DrawOobPolicy) :
    drawTargets policy ps = drawTargets policy' ps := by
  have hin : ∀ p ∈ ps, p.outOfRange = false := by simpa [oobPixels] using h
  exact List.filterMap_congr fun p hp => by simp only [Pixel.target, hin p hp]; rfl

/-- R99: drawing pixels in range under another policy gives the same state but for the policy. -/
theorem State.drawSprite_withDrawOob {ps : List Pixel} (h : oobPixels ps = []) (policy : DrawOobPolicy) :
    (s.withDrawOob policy).drawSprite ps = (s.drawSprite ps).withDrawOob policy := by
  simp only [State.drawSprite, State.withDrawOob, drawTargets_of_inside h policy s.params.drawOob]
  rfl

end

/-! ## The obligations -/

/-- Settles O32: wrapping keeps the pixels of one sprite apart. -/
theorem noCellToggledTwice : Obligations.NoCellToggledTwice := fun policy px py _ => drawTargets_nodup policy px py

/-- Settles O28: the read of the sprite comes before its pixels. -/
theorem drawPastMemoryFaults : Obligations.DrawPastMemoryFaults := fun x y _ _ h1 h2 =>
  exec_drw_past_memory x y h1 (by omega)

/-- Settles O30, from what the drawn state holds. -/
theorem drawResult : Obligations.DrawResult := by
  intro x y n s hread hinside
  obtain ⟨hhit, hmiss⟩ := State.drawn_readReg_vf (x := x) (y := y) hread
  obtain ⟨hout, hin⟩ := State.drawn_drawOobSeen (x := x) (y := y) hread
  exact ⟨s.drawn x y n, exec_drw_draws hread hinside, State.drawn_cell hread, hhit, hmiss, hout, hin, rfl,
    advancesBy_of_pc rfl, s.drawn_frame x y n⟩

/-- Settles O29: under `fault` the list's first out-of-range pixel is the statement's; otherwise the DRW of O30 draws. -/
theorem drawOutsideFramebuffer : Obligations.DrawOutsideFramebuffer := by
  intro x y n s r c hread hfirst
  refine ⟨fun hpolicy => exec_drw_outside_fault hread hpolicy (head?_oobPixels hread hfirst), fun hpolicy => ?_⟩
  have hseen : (s.drawn x y n).drawOobSeen = true := (State.drawn_drawOobSeen hread).1 ⟨r, c, hfirst.1⟩
  exact ⟨_, exec_drw_draws hread fun h => absurd h hpolicy, ⟨rfl, rfl, rfl⟩, hseen, rfl⟩

/-- Settles O31: the DRW of O30 with no pixels. -/
theorem drawNoRows : Obligations.DrawNoRows := by
  intro x y s
  have hread : s.spriteReadable 0 := .inl rfl
  have hout : ¬ s.someOutside x y 0 := fun ⟨r, c, hset, _⟩ => s.not_pixelSet_zero r c hset
  have hcell : ∀ cell, ¬ s.drawnAt x y 0 cell := fun _ ⟨r, c, hset, _⟩ => s.not_pixelSet_zero r c hset
  have hvf : (s.drawn x y 0).readReg Reg.vf = 0 := (State.drawn_readReg_vf hread).2 fun ⟨cell, hm, _⟩ => hcell cell hm
  exact ⟨s.drawn x y 0, exec_drw_draws hread fun _ => hout, hvf, rfl, advancesBy_of_pc rfl,
    fun cell => (State.drawn_cell hread cell).2 (hcell cell), (State.drawn_drawOobSeen hread).2 hout, s.drawn_frame x y 0⟩

/-- Settles O33: the second DRW draws at the same cells, so it complements each complemented cell back, and it meets a 1 where
the first met a 0. -/
theorem drawTwiceRestores : Obligations.DrawTwiceRestores := by
  intro x y n s t hread hinside hexec hx hy
  rw [exec_drw_draws hread hinside] at hexec
  cases hexec
  have hsame : ∀ cell, (s.drawn x y n).drawnAt x y n cell ↔ s.drawnAt x y n cell := drawnAt_congr hx hy rfl rfl rfl
  have hcell := fun cell => State.drawn_cell (x := x) (y := y) hread cell
  have hread' : (s.drawn x y n).spriteReadable n := hread
  have hinside' : (s.drawn x y n).params.drawOob = .fault → ¬ (s.drawn x y n).someOutside x y n := fun hpolicy =>
    mt (someOutside_congr hx hy rfl rfl).mp (hinside hpolicy)
  have hflipped : (∃ cell, (s.drawn x y n).drawnAt x y n cell ∧ (s.drawn x y n).fb.cell cell = true) ↔
      ∃ cell, s.drawnAt x y n cell ∧ s.fb.cell cell = false := by
    refine exists_congr fun cell => ?_
    rw [hsame cell]
    refine and_congr_right fun hm => ?_
    rw [(hcell cell).1 hm, Bool.not_eq_true']
  refine ⟨_, exec_drw_draws hread' hinside', fun cell => ?_, ?_⟩
  · obtain ⟨hdrawn, hkept⟩ := State.drawn_cell (x := x) (y := y) hread' cell
    by_cases hm : s.drawnAt x y n cell
    · rw [hdrawn ((hsame cell).mpr hm), (hcell cell).1 hm, Bool.not_not]
    · rw [hkept (mt (hsame cell).mp hm), (hcell cell).2 hm]
  · rw [← hflipped]
    exact State.drawn_readReg_vf hread'

/-- Settles O34: no pixel is out of range, so the policy is not asked. -/
theorem policiesAgreeInside : Obligations.PoliciesAgreeInside := by
  intro x y n s t policy hread hin hexec
  rw [exec_drw_draws hread fun _ => hin] at hexec
  cases hexec
  have hexec' : exec (.drw x y n) (s.withDrawOob policy) =
      .next ((s.withDrawOob policy).drawSprite (s.drawPixels x y (s.spriteBytes n))) :=
    exec_drw_draws (s := s.withDrawOob policy) hread fun _ => hin
  rw [State.drawSprite_withDrawOob ((oobPixels_eq_nil hread).mpr hin)] at hexec'
  exact hexec'

end Sys2Proof.Machine
end

section
/-! Proofs/ProgramView.lean: what a program can observe (10_state.md section 6, R24). A step is compared with the step of the
state whose unobserved fields are cleared: two states a program cannot tell apart have the same cleared state. -/

namespace Sys2Proof.Machine

/-- R24: the state with every field a program cannot observe at its reset value. -/
def State.programView (s : State) : State :=
  { s with dirty := false, unimplSeen := false, drawOobSeen := false, reports := [], cause := 0, info := (0, 0) }

/-- R24: two states are the same to a program exactly when their views are equal. -/
theorem sameToProgram_iff {s s' : State} : SameToProgram s s' ↔ s'.programView = s.programView := by
  simp only [SameToProgram, State.programView, State.mk.injEq, true_and, and_true]

/-- Two outcomes that a program cannot tell apart. -/
def SameOutcome (a b : Host.Outcome State Fault Refusal) : Prop :=
  ∃ t u, a = .next t ∧ b = .next u ∧ u.programView = t.programView

/-- R24: an instruction does not look at the unobserved fields. -/
theorem exec_programView (i : Instr) (s : State) : SameOutcome (exec i s) (exec i s.programView) := by
  cases i with
  | ret =>
    rcases execRet_cases s with ⟨empty, hexec⟩ | ⟨k, used, hexec⟩
    · exact ⟨_, _, hexec, exec_ret_empty s.programView empty, rfl⟩
    · exact ⟨_, _, hexec, exec_ret_used s.programView k used, rfl⟩
  | call nnn =>
    rcases execCall_cases nnn s with ⟨full, hexec⟩ | ⟨room, hexec⟩
    · exact ⟨_, _, hexec, exec_call_full nnn s.programView full, rfl⟩
    · exact ⟨_, _, hexec, exec_call_room nnn s.programView room, rfl⟩
  | se x nn =>
    rcases execSe_cases x nn s with ⟨heq, hexec⟩ | ⟨hne, hexec⟩
    · exact ⟨_, _, hexec, if_pos (c := s.programView.readReg x = nn) heq, rfl⟩
    · exact ⟨_, _, hexec, if_neg (c := s.programView.readReg x = nn) hne, rfl⟩
  | drw x y n =>
    rcases execDrw_cases x y n s with ⟨h1, h2, hexec⟩ | ⟨hread, ⟨p, hpolicy, hp, hexec⟩ | ⟨hinside, hexec⟩⟩
    · exact ⟨_, _, hexec, exec_drw_past_memory (s := s.programView) x y h1 h2, rfl⟩
    · exact ⟨_, _, hexec, exec_drw_outside_fault (s := s.programView) hread hpolicy hp, rfl⟩
    · have hinside' : s.programView.params.drawOob = .fault → ¬ s.programView.someOutside x y n := fun hpolicy =>
        (oobPixels_eq_nil (s := s.programView) hread).mp (hinside hpolicy)
      exact ⟨_, _, hexec, exec_drw_draws (s := s.programView) hread hinside', rfl⟩
  | _ => exact ⟨_, _, rfl, rfl, rfl⟩

/-- R24: nor does a step. -/
theorem step_programView (s : State) : SameOutcome (step s) (step s.programView) := by
  rcases step_cases s with ⟨hh, hstep⟩ | ⟨hh, hpc, hstep⟩ | ⟨w, i, hh, hpc, hfetch, hdecode, hstep⟩ |
    ⟨w, e, hh, hpc, hfetch, hdecode, hstep⟩
  · exact ⟨_, _, hstep, step_halted (s := s.programView) hh, rfl⟩
  · exact ⟨_, _, hstep, (fetchBoundsChecked s.programView hpc).2 hh, rfl⟩
  · have hstep' : step s.programView = exec i s.programView :=
      (step_fetch_some (s := s.programView) hh hfetch).trans (runWord_ok _ hdecode)
    rw [hstep, hstep']
    exact exec_programView i s
  · have hstep' : step s.programView = execUnrecognized w s.programView :=
      step_unrecognized (s := s.programView) hh hfetch hdecode
    rw [hstep, hstep']
    rcases execUnrecognized_cases w s with ⟨hpolicy, hexec⟩ | ⟨hpolicy, hexec⟩
    · exact ⟨_, _, hexec, execUnrecognized_skip (s := s.programView) w hpolicy, rfl⟩
    · exact ⟨_, _, hexec, execUnrecognized_fault (s := s.programView) w hpolicy, rfl⟩

/-- Settles O45: both states step as their common view does. -/
theorem hostVisibleStateDoesNotLeak : Obligations.HostVisibleStateDoesNotLeak := by
  intro s s' t hsame hstep
  have hview : s'.programView = s.programView := sameToProgram_iff.mp hsame
  obtain ⟨t₁, u, hst, hu, htu⟩ := step_programView s
  obtain ⟨t', u', hst', hu', htu'⟩ := step_programView s'
  obtain rfl : t₁ = t := Host.Outcome.next.inj (hst.symm.trans hstep)
  obtain rfl : u' = u := by
    rw [hview, hu] at hu'
    exact (Host.Outcome.next.inj hu').symm
  exact ⟨t', hst', sameToProgram_iff.mpr (htu'.symm.trans htu)⟩

end Sys2Proof.Machine
end
